-- ==== Sys2Proof/Config.lean ====
section
/-! DEFINITION. The parameters an implementation of H64 fixes and the spec leaves open or gives an alternative
reading for (spec/00_scope.md R7): LEN_W, CHUNK_MODE and A_BIAS_8_16. Their decided values, and the mixing constants,
are in Machine/Constants.lean. -/

namespace Sys2Proof

/-- `CHUNK_MODE` (R7, R95, D22): how the number of 64-byte chunks is computed. -/
inductive ChunkMode where
  | floorLen        -- floor(len / 64), the source's text
  | floorLenMinus1  -- floor((len - 1) / 64), the alternative reading
  deriving DecidableEq, Repr

/-- `A_BIAS_8_16` (R7, R84, D16): what is added to the first word of band 8 to 16. -/
inductive Bias where
  | k2    -- the constant K2, the decided value
  | zero  -- nothing, the alternative reading
  deriving DecidableEq, Repr

/-- The parameters of one H64 (R7, R26). `lenWX` is LEN_W less its least legal value 7, so that every value of the
type is a legal width (D1: 7 <= LEN_W <= 64). -/
structure Params where
  lenWX     : Fin 58
  chunkMode : ChunkMode
  aBias     : Bias
  deriving DecidableEq, Repr

/-- `LEN_W`, the width of the length in bits (R7, D1). -/
def Params.lenW (p : Params) : Nat := p.lenWX.val + 7

end Sys2Proof
end

