-- ==== Sys2Proof/Word.lean ====
section
/-! DEFINITION. The three widths of H64's numerics (spec/00_scope.md R6, R9; spec/41_mixing_primitives.md R72). -/

namespace Sys2Proof

/-- `u8` of R9. -/
abbrev Byte := BitVec 8

/-- `u32` of R9. -/
abbrev Half := BitVec 32

/-- `u64` of R9: the width of every register and of the datapath (R6). -/
abbrev Word := BitVec 64

end Sys2Proof
end

