-- ==== Sys2Proof/Machine/Constants.lean ====
section
/-! DEFINITION. The mixing constants wired into the datapath (spec/10_state.md R21, values of spec/00_scope.md R7) and
the decided values of the parameters. -/

namespace Sys2Proof.Machine

/-- R7, R82. PRESUMED (unsafe, log entry 3): the value is the spec's decision D6 from general knowledge. -/
def K0 : Word := 0xc3a5c85c97cb3127#64

/-- R7. PRESUMED (unsafe, log entry 3): the spec's decision D7 from general knowledge. -/
def K1 : Word := 0xb492b66fbe98f273#64

/-- R7, R81: the one constant whose value the source gives (D9). -/
def K2 : Word := 0x9ae16a3b2f90404f#64

/-- R7, R76. PRESUMED (unsafe, log entry 3): the spec's decision D8 from general knowledge. -/
def KMUL : Word := 0x9ddfea08eb382d69#64

/-- The value of `A_BIAS_8_16` under each reading (R7, R84, D16). -/
def biasWord : Bias → Word
  | .k2   => K2
  | .zero => 0

/-- The values of the parameters the spec decides or gives as default (R7): LEN_W = 64, CHUNK_MODE = floor_len,
A_BIAS_8_16 = K2. DESIGN CHOICE (safe, log entry 2): every statement holds for every value of the parameters. -/
def decidedParams : Params := { lenWX := 57, chunkMode := .floorLen, aBias := .k2 }

end Sys2Proof.Machine
end

