-- ==== Sys2Proof/Syntax.lean ====
section
/-! DEFINITION. The operations of H64: one constructor for each row of spec/opcode_table.json. Lengths and offsets are
natural numbers (spec/00_scope.md R9), so that a length too wide for LEN_W and a rotate amount of 64 can be written
down and refused (R11). -/

namespace Sys2Proof

inductive Instr where
  -- CALL rows: `buf` has no bits in the command (spec/30_encoding.md R53); the operand is the length
  | h0 (len : Nat)            -- R81
  | h1_3 (len : Nat)          -- R82
  | h4_7 (len : Nat)          -- R83
  | h8_16 (len : Nat)         -- R84
  | h17_32 (len : Nat)        -- R87
  | h33_64 (len : Nat)        -- R90
  | h65p (len : Nat)          -- R92, R100
  -- PSEUDO and COMPOSITE rows (R62)
  | hash64 (len : Nat)        -- R103
  | small0to16 (len : Nat)    -- R80
  -- STEP rows: no operand, they read x[LEN] (R27)
  | h65pSeed                  -- R94
  | h65pChunk                 -- R96, R97
  | h65pFinal                 -- R99
  -- PRIM rows: function blocks without an encoding (R61)
  | fetch64 (off : Nat)       -- R63
  | fetch32 (off : Nat)       -- R64
  | fetch8 (off : Nat)        -- R65
  | loadBytes (off n : Nat)   -- R66; `off` is where the caller's buffer operand starts
  | rotr (v : Word) (k : Nat) -- R73
  | shiftMix (v : Word)       -- R74
  | hashLen16M (u v mul : Word)                 -- R75
  | hashLen16 (u v : Word)                      -- R76
  | weakHash32 (w x y z a b : Word)             -- R77
  | weakHash32M (off : Nat) (a b : Word)        -- R78
  | bswap64 (v : Word)                          -- R79
  deriving DecidableEq, Repr

end Sys2Proof
end

