-- ==== Sys2Proof/Decode.lean ====
section
/-! DEFINITION. The decode of the command word (spec/30_encoding.md R53 to R57) and the encoder. The command is one
number, the length; there is no opcode field and no byte order of a command (R36). -/

namespace Sys2Proof

/-- Why a number is no command word. -/
inductive DecodeError where
  /-- It does not fit LEN_W bits (R57). Safe. -/
  | lenRange
  deriving DecidableEq, Repr

/-- Second level, inside the tier 0 to 16 (R55). -/
def decodeSmall (len : Nat) : Instr :=
  if len = 0 then .h0 len
  else if len ≤ 3 then .h1_3 len
  else if len ≤ 7 then .h4_7 len
  else .h8_16 len

/-- First level, the dispatcher's four routes (R54): total on the numbers of LEN_W bits (R56). -/
def decode (p : Params) (len : Nat) : Except DecodeError Instr :=
  if 2 ^ p.lenW ≤ len then .error .lenRange
  else if len ≤ 16 then .ok (decodeSmall len)
  else if len ≤ 32 then .ok (.h17_32 len)
  else if len ≤ 64 then .ok (.h33_64 len)
  else .ok (.h65p len)

/-- The command word of an operation the host can select (R53, R103); the rows of R61 have none. -/
def encode : Instr → Option Nat
  | .h0 len         => some len
  | .h1_3 len       => some len
  | .h4_7 len       => some len
  | .h8_16 len      => some len
  | .h17_32 len     => some len
  | .h33_64 len     => some len
  | .h65p len       => some len
  | .hash64 len     => some len
  | .small0to16 _   => none
  | .h65pSeed       => none
  | .h65pChunk      => none
  | .h65pFinal      => none
  | .fetch64 _      => none
  | .fetch32 _      => none
  | .fetch8 _       => none
  | .loadBytes _ _  => none
  | .rotr _ _       => none
  | .shiftMix _     => none
  | .hashLen16M _ _ _       => none
  | .hashLen16 _ _          => none
  | .weakHash32 _ _ _ _ _ _ => none
  | .weakHash32M _ _ _      => none
  | .bswap64 _              => none

/-- A row of format CALL: one of the seven operations the decode selects (R55, R62). -/
def Instr.isCall : Instr → Bool
  | .h0 _           => true
  | .h1_3 _         => true
  | .h4_7 _         => true
  | .h8_16 _        => true
  | .h17_32 _       => true
  | .h33_64 _       => true
  | .h65p _         => true
  | .hash64 _       => false
  | .small0to16 _   => false
  | .h65pSeed       => false
  | .h65pChunk      => false
  | .h65pFinal      => false
  | .fetch64 _      => false
  | .fetch32 _      => false
  | .fetch8 _       => false
  | .loadBytes _ _  => false
  | .rotr _ _       => false
  | .shiftMix _     => false
  | .hashLen16M _ _ _       => false
  | .hashLen16 _ _          => false
  | .weakHash32 _ _ _ _ _ _ => false
  | .weakHash32M _ _ _      => false
  | .bswap64 _              => false

/-- The operation the decoder reads from a command word of value `w`, with the default LEN_W = 64 (R7). The command is
one word with bit 0 its least significant bit (R53), so a row given with fewer bits is the same number. -/
def decodeTableWord (_nbits w : Nat) : Option Instr :=
  match decode Machine.decidedParams w with
  | .ok i    => some i
  | .error _ => none

end Sys2Proof
end

