-- ==== Sys2Proof/Machine/State.lean ====
section
/-! DEFINITION. The state of one H64 (spec/10_state.md R13 to R30) as plain data, the reasons a step can stop, and the
state after reset (R29, R121). -/

namespace Sys2Proof.Machine

/-- The input buffer (R13, R31): address and byte, addresses strictly rising. An unlisted address reads as nothing:
the read is refused `OutOfBounds` (R43; safe, log entry 8). -/
abbrev Memory := List Host.Cell

/-- `PHASE` (R17). -/
inductive Phase where
  | idle    -- no call in progress and no result held
  | seeded  -- the seed step has run
  | loop    -- at least one chunk step has run and REM is not 0
  | looped  -- the chunk loop has ended
  | done    -- the call has ended; RESULT is valid
  deriving DecidableEq, Repr

/-- The accumulators of the large-input engine (R15, R93): seven 64-bit registers. -/
structure Acc where
  x  : Word
  y  : Word
  z  : Word
  v0 : Word   -- v.first
  v1 : Word   -- v.second
  w0 : Word   -- w.first
  w1 : Word   -- w.second
  deriving DecidableEq, Repr

/-- The `v` of an outcome `Ok(v)` (R11), in the width its operation gives it (R63 to R66, R73 to R79, R19). -/
inductive Value where
  | flag (b : Bool)
  | u8 (v : Byte)
  | u32 (v : Half)
  | u64 (v : Word)
  | pair (first second : Word)
  deriving DecidableEq, Repr

/-- What the host does during one step (R107, R117, R122, R123). DESIGN CHOICE (safe, log entry 1). -/
inductive HostInput where
  | quiet                      -- nothing
  | reset                      -- R121, R122
  | start (len : Nat)          -- R107; the buffer reference is the buffer of the state (R53)
  | place (bytes : List Byte)  -- the host puts the input bytes at offset 0 up (R123)
  | write (off : Nat) (b : Byte)  -- the host changes one byte of its buffer (R108, R124)
  | readBusy                   -- R19, R20
  | readDone                   -- R19, R20
  | readResult                 -- R16, R129
  deriving DecidableEq, Repr

/-- The one way a step stops with a fault. H64 itself takes no trap (R110, R120). -/
inductive Fault where
  /-- Raised by the host input `readResult` while DONE = 0, which R129 forbids: the register named holds no value, and
  "a read is a fault of the model" (U10; R29, D27).
  Safe: the model stops where the spec gives no value. -/
  | unwrittenRead (register : String)
  deriving DecidableEq, Repr

/-- The reasons for which the model gives no meaning (R11, R111). None is a trap of the hardware. -/
inductive Refusal where
  /-- Raised by an arm of `exec` whose instruction has no meaning yet; no arm does. Safe. -/
  | notModelled (mnemonic : String)
  /-- Raised by a load, and by the start of a call, that needs a byte the buffer does not hold, or a byte at or beyond
  x[LEN] (R43, U1). Safe. -/
  | outOfBounds
  /-- Raised by ROTR with an amount of 64 or more (R73, U3). Safe. -/
  | shiftRange
  /-- Raised by a call with a length that does not fit LEN_W bits (R57, U7). Safe. -/
  | lenRange
  /-- Raised by a band operation with a length outside its band (R44, U6). Safe. -/
  | bandMismatch
  /-- Raised by the start of a call while a call is in progress (R106, U9). Safe. -/
  | busy
  /-- Raised by LOADBYTES of 9 bytes or more (R66, U4); the spec gives this refusal no name. Safe. -/
  | loadLength
  /-- Raised by H65P.CHUNK and H65P.FINAL in a phase that does not enable them (R96, R99). Safe, log entry 11. -/
  | notEnabled
  /-- Raised by the host inputs `place` and `write` where they write below x[LEN] while a call is in progress (R52, R124,
  U5). Safe, log entry 9. -/
  | bufferChanged
  deriving DecidableEq, Repr

structure State where
  /-- `BUF` (R13). -/
  buf    : Memory
  /-- `LEN` (R14), zero-extended to 64 bits (log entry 14). -/
  len    : Word
  /-- `X`, `Y`, `Z`, `V0`, `V1`, `W0`, `W1` (R15). -/
  acc    : Acc
  /-- `POS` (R18), zero-extended to 64 bits. -/
  pos    : Word
  /-- `REM` (R18), zero-extended to 64 bits. -/
  rem    : Word
  /-- `RESULT` (R16). -/
  result : Word
  /-- `PHASE` (R17); BUSY and DONE are functions of it (R19, Machine/Flags.lean). -/
  phase  : Phase
  /-- The parameters of the implementation (R7, R26); no step writes them (log entry 2). -/
  params : Params
  /-- The MODEL's own: what the host does in the steps to come, one input a step (log entry 1). -/
  inputs : List HostInput
  /-- The MODEL's own: the value of the last `Ok(v)` (R11) that goes to no register (log entry 6). -/
  ok     : Option Value
  deriving DecidableEq, Repr

/-- The machine right after reset (R29, R121): PHASE = IDLE, so BUSY = 0 and DONE = 0. The spec leaves LEN, RESULT, the
accumulators, POS and REM without a value: DESIGN CHOICE (unsafe, log entry 5), they hold 0. -/
def State.reset : State where
  buf    := []
  len    := 0
  acc    := ⟨0, 0, 0, 0, 0, 0, 0⟩
  pos    := 0
  rem    := 0
  result := 0
  phase  := .idle
  params := decidedParams
  inputs := []
  ok     := none

end Sys2Proof.Machine
end

