-- ==== Sys2Proof/Machine/Mix.lean ====
section
/-! DEFINITION. The mixing primitives as functions of their operands (spec/41_mixing_primitives.md). Addition and
multiplication are those of `BitVec 64`, modulo 2^64 (R70); `>>>` is the logical shift (R71). -/

namespace Sys2Proof.Machine

/-- `ROTR v, s` for `0 <= s < 64` (R73): a rotate by 0 is the identity, apart from the formula (R126). -/
def rotr (v : Word) (k : Nat) : Word :=
  if k = 0 then v else (v >>> k) ||| (v <<< (64 - k))

/-- `SHIFTMIX v` (R74). -/
def shiftMix (v : Word) : Word := v ^^^ (v >>> 47)

/-- `HASHLEN16M u, v, mul` (R75), its five steps. PRESUMED (unsafe, log entry 4): the second operand of step 3 is the
spec's decision D10. -/
def hashLen16M (u v m : Word) : Word :=
  let a := (u ^^^ v) * m
  let a := a ^^^ (a >>> 47)
  let b := (v ^^^ a) * m
  let b := b ^^^ (b >>> 47)
  b * m

/-- `HASHLEN16 u, v` (R76). PRESUMED (unsafe, log entry 4): D11. -/
def hashLen16 (u v : Word) : Word := hashLen16M u v KMUL

/-- `WEAKHASH32 w, x, y, z, a, b` (R77), its six steps and its pair. PRESUMED (unsafe, log entry 4): D12. -/
def weakHash32 (w x y z a b : Word) : Word × Word :=
  let a := a + w
  let b := rotr (b + a + z) 21
  let c := a
  let a := a + x
  let a := a + y
  let b := b + rotr a 44
  (a + z, b + c)

/-- `BSWAP64 v` (R79): `v[7:0]` becomes the most significant byte. -/
def bswap64 (v : Word) : Word :=
  v.extractLsb' 0 8 ++ v.extractLsb' 8 8 ++ v.extractLsb' 16 8 ++ v.extractLsb' 24 8 ++
    v.extractLsb' 32 8 ++ v.extractLsb' 40 8 ++ v.extractLsb' 48 8 ++ v.extractLsb' 56 8

end Sys2Proof.Machine
end

