-- ==== Sys2Proof/Machine/Flags.lean ====
section
/-! DEFINITION. The handshake flags, functions of PHASE (spec/10_state.md R19). H64 has no other flag: no carry, no
overflow, no condition code. -/

namespace Sys2Proof.Machine

/-- `BUSY` is 1 exactly when PHASE is SEEDED, LOOP or LOOPED. -/
def busyFlag (s : State) : Bool :=
  match s.phase with
  | .idle   => false
  | .seeded => true
  | .loop   => true
  | .looped => true
  | .done   => false

/-- `DONE` is 1 exactly when PHASE is DONE. -/
def doneFlag (s : State) : Bool :=
  match s.phase with
  | .idle   => false
  | .seeded => false
  | .loop   => false
  | .looped => false
  | .done   => true

end Sys2Proof.Machine
end

