-- ==== Sys2Proof/Machine/Ops.lean ====
section
/-! DEFINITION. The named operations over the buffer and over a call: reading a byte, placing the buffer, the beginning
and the end of a call, and delivering a value. H64 has no exception to take and none to return from
(spec/60_exceptions.md R110, R114, R115). -/

namespace Sys2Proof.Machine

/-! ### The buffer -/

/-- The addresses of a memory rise strictly, all at or above `k`. -/
def Memory.wfFrom : Nat → Memory → Bool
  | _, []          => true
  | k, (a, _) :: m => decide (k ≤ a) && Memory.wfFrom (a + 1) m

/-- The canonical form of a memory: addresses strictly rising, so that equal memories are equal lists. -/
def Memory.wf (m : Memory) : Bool := Memory.wfFrom 0 m

/-- The byte the host made readable at offset `a`, if any (R31, R43). -/
def readByte (a : Nat) : Memory → Option Byte
  | []          => none
  | (k, b) :: m => if k = a then some b else readByte a m

/-- The `n` bytes from offset `off` up, `b0` first (`MemRead` of R10). -/
def readBytes (m : Memory) : Nat → Nat → Option (List Byte)
  | _, 0       => some []
  | off, n + 1 =>
    match readByte off m, readBytes m (off + 1) n with
    | some b, some bs => some (b :: bs)
    | _, _            => none

/-- How many bytes are readable from offset `k` up without a gap. -/
def extentFrom : Nat → Memory → Nat
  | k, []          => k
  | k, (a, _) :: m => if a = k then extentFrom (k + 1) m else k

/-- The number of bytes the buffer is readable for (R32, R111): every offset below it is readable. -/
def extent (m : Memory) : Nat := extentFrom 0 m

/-- The host puts one byte at an offset. H64 itself stores nothing (R40). -/
def writeByte (a : Nat) (b : Byte) : Memory → Memory
  | []          => [(a, b)]
  | (k, c) :: m =>
    if a < k then (a, b) :: (k, c) :: m
    else if a = k then (a, b) :: m
    else (k, c) :: writeByte a b m

/-- A run of bytes from offset `k` up. -/
def cellsFrom : Nat → List Byte → Memory
  | _, []      => []
  | k, b :: bs => (k, b) :: cellsFrom (k + 1) bs

/-- The buffer that holds exactly these bytes, the first at offset 0 (R13, R123). -/
def placeBytes (bs : List Byte) : Memory := cellsFrom 0 bs

/-! ### A call -/

/-- The preconditions of a call of a circuit for the lengths `lo` to `hi` that do not concern LEN_W, in the order of
R113: no call in progress (R107), the length in the band (R44), the buffer readable for the whole length (R43, R111).
A call that violates one has no step at all (R114; log entry 10). -/
def checkCall (lo hi len : Nat) (s : State) : Except Refusal Unit :=
  if busyFlag s then .error .busy
  else if len < lo ∨ hi < len then .error .bandMismatch
  else if extent s.buf < len then .error .outOfBounds
  else .ok ()

/-- START (R107): the length is checked and latched into LEN. -/
def beginCall (lo hi len : Nat) (s : State) : Except Refusal State :=
  if 2 ^ s.params.lenW ≤ len then .error .lenRange
  else match checkCall lo hi len s with
    | .error r => .error r
    | .ok ()   => .ok { s with len := BitVec.ofNat 64 len }

/-- The end of a call (R108): RESULT is written and PHASE is DONE. -/
def endCall (v : Word) (s : State) : State := { s with result := v, phase := .done }

/-- `Ok(v)` of an operation that has no register to write (R11; log entry 6). -/
def deliver (v : Value) (s : State) : State := { s with ok := some v }

/-! ### Outcomes -/

/-- An operation that either has a next state or is refused. -/
def toOutcome : Except Refusal State → Host.Outcome State Fault Refusal
  | .ok t    => .next t
  | .error r => .refused r

/-- A primitive on its own: its value is delivered and nothing else changes (R27). -/
def answer (v : Except Refusal Value) (s : State) : Host.Outcome State Fault Refusal :=
  match v with
  | .ok x    => .next (deliver x s)
  | .error r => .refused r

/-- A call of a band of one step (R106, first row): START, the band's value, the end of the call. -/
def oneStepCall (lo hi : Nat) (value : State → Except Refusal Word) (len : Nat) (s : State) :
    Host.Outcome State Fault Refusal :=
  match beginCall lo hi len s with
  | .error r => .refused r
  | .ok s1   =>
    match value s1 with
    | .error r => .refused r
    | .ok v    => .next (endCall v s1)

end Sys2Proof.Machine
end

