-- ==== Sys2Proof/Machine/Operands.lean ====
section
/-! DEFINITION. The operand forms: loads at an offset of the buffer (spec/40_byte_loader.md) and the operands derived
from the length (spec/30_encoding.md R58, spec/45_rolling_engine_64plus.md R95). -/

namespace Sys2Proof.Machine

/-- The number whose bytes, the lowest offset first, are the list: byte `i` has the weight `2^(8*i)` (R33). -/
def leNat : List Byte → Nat
  | []      => 0
  | b :: bs => b.toNat + 256 * leNat bs

/-- `MemRead(off, n)` (R10), defined only inside the buffer: `off + n <= x[LEN]` (R43). -/
def memRead (s : State) (off n : Nat) : Except Refusal (List Byte) :=
  if off + n ≤ s.len.toNat then
    match readBytes s.buf off n with
    | some bs => .ok bs
    | none    => .error .outOfBounds
  else .error .outOfBounds

/-- A little-endian load of `n` bytes as a number (R33). -/
def loadNat (s : State) (off n : Nat) : Except Refusal Nat :=
  match memRead s off n with
  | .ok bs   => .ok (leNat bs)
  | .error r => .error r

/-- `FETCH64 off` (R63). -/
def fetch64 (s : State) (off : Nat) : Except Refusal Word :=
  match loadNat s off 8 with
  | .ok n    => .ok (BitVec.ofNat 64 n)
  | .error r => .error r

/-- `FETCH32 off` (R64). -/
def fetch32 (s : State) (off : Nat) : Except Refusal Half :=
  match loadNat s off 4 with
  | .ok n    => .ok (BitVec.ofNat 32 n)
  | .error r => .error r

/-- `FETCH8 off` (R65). -/
def fetch8 (s : State) (off : Nat) : Except Refusal Byte :=
  match loadNat s off 1 with
  | .ok n    => .ok (BitVec.ofNat 8 n)
  | .error r => .error r

/-- `LOADBYTES n` on the buffer operand that starts at `off` (R66). DESIGN CHOICE (log entry 12): the operand starts at
an offset of BUF and its bytes are bounded by x[LEN] as those of `MemRead` are (R43); for `n` = 0 no byte is read and
no bound applies, so the empty sum 0 is answered at every `off`, also beyond x[LEN]. -/
def loadBytes (s : State) (off n : Nat) : Except Refusal Word :=
  if n = 0 then .ok 0
  else if n < 9 then
    match loadNat s off n with
    | .ok v    => .ok (BitVec.ofNat 64 v)
    | .error r => .error r
  else .error .loadLength

/-- `MUL(len) = K2 + 2 * len` modulo 2^64 (R58). -/
def mul (len : Word) : Word := K2 + 2 * len

/-- `NCHUNKS(len)` (R95). -/
def nchunks (mode : ChunkMode) (len : Nat) : Nat :=
  match mode with
  | .floorLen       => len / 64
  | .floorLenMinus1 => (len - 1) / 64

end Sys2Proof.Machine
end

