-- ==== Sys2Proof/Machine/Primitives.lean ====
section
/-! DEFINITION. The meanings of the PRIM rows (spec/30_encoding.md R61): each primitive on its own delivers its value
and touches no register (spec/10_state.md R27). -/

namespace Sys2Proof.Machine

/-- `FETCH64 off` (R63). -/
def execFetch64 (off : Nat) (s : State) : Host.Outcome State Fault Refusal :=
  answer ((fetch64 s off).map .u64) s

/-- `FETCH32 off` (R64). -/
def execFetch32 (off : Nat) (s : State) : Host.Outcome State Fault Refusal :=
  answer ((fetch32 s off).map .u32) s

/-- `FETCH8 off` (R65). -/
def execFetch8 (off : Nat) (s : State) : Host.Outcome State Fault Refusal :=
  answer ((fetch8 s off).map .u8) s

/-- `LOADBYTES n` (R66). -/
def execLoadBytes (off n : Nat) (s : State) : Host.Outcome State Fault Refusal :=
  answer ((loadBytes s off n).map .u64) s

/-- `ROTR v, s` (R73): an amount outside 0 to 63 is refused (D25). -/
def execRotr (v : Word) (k : Nat) (s : State) : Host.Outcome State Fault Refusal :=
  if k < 64 then answer (.ok (.u64 (rotr v k))) s else .refused .shiftRange

/-- `SHIFTMIX v` (R74). -/
def execShiftMix (v : Word) (s : State) : Host.Outcome State Fault Refusal :=
  answer (.ok (.u64 (shiftMix v))) s

/-- `HASHLEN16M u, v, mul` (R75). -/
def execHashLen16M (u v mul : Word) (s : State) : Host.Outcome State Fault Refusal :=
  answer (.ok (.u64 (hashLen16M u v mul))) s

/-- `HASHLEN16 u, v` (R76). -/
def execHashLen16 (u v : Word) (s : State) : Host.Outcome State Fault Refusal :=
  answer (.ok (.u64 (hashLen16 u v))) s

/-- The weak hash of the 32-byte window at `off` (R78): four words in ascending order. -/
def weakHash32M (s : State) (off : Nat) (a b : Word) : Except Refusal (Word × Word) := do
  let w ← fetch64 s off
  let x ← fetch64 s (off + 8)
  let y ← fetch64 s (off + 16)
  let z ← fetch64 s (off + 24)
  return weakHash32 w x y z a b

/-- `WEAKHASH32 w, x, y, z, a, b` (R77). -/
def execWeakHash32 (w x y z a b : Word) (s : State) : Host.Outcome State Fault Refusal :=
  answer (.ok (.pair (weakHash32 w x y z a b).1 (weakHash32 w x y z a b).2)) s

/-- `WEAKHASH32M off, a, b` (R78). -/
def execWeakHash32M (off : Nat) (a b : Word) (s : State) : Host.Outcome State Fault Refusal :=
  answer ((weakHash32M s off a b).map fun r => .pair r.1 r.2) s

/-- `BSWAP64 v` (R79). -/
def execBswap64 (v : Word) (s : State) : Host.Outcome State Fault Refusal :=
  answer (.ok (.u64 (bswap64 v))) s

end Sys2Proof.Machine
end

