-- ==== Sys2Proof/Machine/Rolling.lean ====
section
/-! DEFINITION. The large-input engine (spec/45_rolling_engine_64plus.md): its three steps, and H65P as their
composition. -/

namespace Sys2Proof.Machine

/-- The longest length a command can carry: `2^LEN_W - 1` (R14, R56). -/
def maxLen (s : State) : Nat := 2 ^ s.params.lenW - 1

/-- Steps 1 to 6 of R94 on the latched length, in the rule's order. PRESUMED (unsafe, log entry 4): D19. -/
def seedAcc (s : State) : Except Refusal Acc := do
  let len := s.len.toNat
  let x ← fetch64 s (len - 40)
  let y1 ← fetch64 s (len - 16)
  let y2 ← fetch64 s (len - 56)
  let y := y1 + y2
  let z1 ← fetch64 s (len - 48)
  let z2 ← fetch64 s (len - 24)
  let z := hashLen16 (z1 + s.len) z2
  let v ← weakHash32M s (len - 64) s.len z
  let w ← weakHash32M s (len - 32) (y + K1) x
  let front ← fetch64 s 0
  return { x := x * K1 + front, y := y, z := z, v0 := v.1, v1 := v.2, w0 := w.1, w1 := w.2 }

/-- `H65P.SEED` (R94) with its precondition (R92, R107). -/
def seedState (s : State) : Except Refusal State := do
  checkCall 65 (maxLen s) s.len.toNat s
  let a ← seedAcc s
  return { s with
    acc := a, pos := 0, rem := BitVec.ofNat 64 (64 * nchunks s.params.chunkMode s.len.toNat), phase := .seeded }

/-- Steps 1 to 8 of R97 on the chunk at offset `p`, in the rule's order. PRESUMED (unsafe, log entry 4): D20. -/
def chunkAcc (s : State) (p : Nat) (r : Acc) : Except Refusal Acc := do
  let c1 ← fetch64 s (p + 8)
  let x := rotr (r.x + r.y + r.v0 + c1) 37 * K1
  let c6 ← fetch64 s (p + 48)
  let y := rotr (r.y + r.v1 + c6) 42 * K1
  let x := x ^^^ r.w1
  let c5 ← fetch64 s (p + 40)
  let y := y + r.v0 + c5
  let z := rotr (r.z + r.w0) 33 * K1
  let v ← weakHash32M s p (r.v1 * K1) (x + r.w0)
  let c2 ← fetch64 s (p + 16)
  let w ← weakHash32M s (p + 32) (z + r.w1) (y + c2)
  return { x := z, y := y, z := x, v0 := v.1, v1 := v.2, w0 := w.1, w1 := w.2 }

/-- PHASE is SEEDED or LOOP and at least one chunk is left (R96, R106). -/
def chunkEnabled (s : State) : Bool :=
  match s.phase with
  | .idle   => false
  | .seeded => decide (64 ≤ s.rem.toNat)
  | .loop   => decide (64 ≤ s.rem.toNat)
  | .looped => false
  | .done   => false

/-- `H65P.CHUNK` (R97) with the loop control of R96. -/
def chunkState (s : State) : Except Refusal State :=
  if chunkEnabled s then do
    let a ← chunkAcc s s.pos.toNat s.acc
    return { s with
      acc := a, pos := BitVec.ofNat 64 (s.pos.toNat + 64), rem := BitVec.ofNat 64 (s.rem.toNat - 64),
      phase := if s.rem.toNat - 64 = 0 then .looped else .loop }
  else .error .notEnabled

/-- The combination of the accumulators (R99). PRESUMED (unsafe, log entry 4): D21. -/
def finalMix (r : Acc) : Word :=
  let h1 := hashLen16 r.v0 r.w0
  let h2 := hashLen16 r.v1 r.w1
  hashLen16 (h1 + shiftMix r.y * K1 + r.z) (h2 + r.x)

/-- `H65P.FINAL` (R99), enabled in LOOPED. -/
def finalState (s : State) : Except Refusal State :=
  match s.phase with
  | .idle   => .error .notEnabled
  | .seeded => .error .notEnabled
  | .loop   => .error .notEnabled
  | .looped => .ok (endCall (finalMix s.acc) s)
  | .done   => .error .notEnabled

/-- The chunk step `n` times (R100). -/
def chunkLoop : Nat → State → Except Refusal State
  | 0, s     => .ok s
  | n + 1, s =>
    match chunkState s with
    | .error r => .error r
    | .ok t    => chunkLoop n t

/-- START with a length of the large engine, first step only (R106, second row). -/
def startSeed (len : Nat) (s : State) : Except Refusal State := do
  let s1 ← beginCall 65 (maxLen s) len s
  seedState s1

/-- `H65P buf, len` as a function (R100): seed, NCHUNKS(len) chunk steps, finalize, the whole call at once (R17). -/
def execH65p (len : Nat) (s : State) : Host.Outcome State Fault Refusal :=
  toOutcome do
    let s0 ← startSeed len s
    let s1 ← chunkLoop (nchunks s.params.chunkMode len) s0
    finalState s1

/-- `H65P.SEED` (R94). -/
def execH65pSeed (s : State) : Host.Outcome State Fault Refusal := toOutcome (seedState s)

/-- `H65P.CHUNK` (R96, R97). -/
def execH65pChunk (s : State) : Host.Outcome State Fault Refusal := toOutcome (chunkState s)

/-- `H65P.FINAL` (R99). -/
def execH65pFinal (s : State) : Host.Outcome State Fault Refusal := toOutcome (finalState s)

end Sys2Proof.Machine
end

