-- ==== Sys2Proof/Machine/Small.lean ====
section
/-! DEFINITION. The bands of lengths 0 to 64, each a fixed circuit over its loads (spec/42_small_hash_0to16.md,
spec/43_small_hash_17to32.md, spec/44_small_hash_33to64.md). In each `value` the length is x[LEN] and the names are the
wires of the spec's rule; the meaning is the one-step call of R106. -/

namespace Sys2Proof.Machine

/-- R81: the constant K2; no byte is read. -/
def h0Value (_ : State) : Except Refusal Word := .ok K2

/-- R82. The two sums are 32-bit (R72, D38). PRESUMED (unsafe, log entry 4): D14. -/
def h1_3Value (s : State) : Except Refusal Word := do
  let len := s.len.toNat
  let a ← fetch8 s 0
  let b ← fetch8 s (len >>> 1)
  let c ← fetch8 s (len - 1)
  let y : Half := a.setWidth 32 + (b.setWidth 32 <<< 8)
  let z : Half := s.len.setWidth 32 + (c.setWidth 32 <<< 2)
  return shiftMix ((y.setWidth 64 * K2) ^^^ (z.setWidth 64 * K0)) * K2

/-- R83. PRESUMED (unsafe, log entry 4): D15. -/
def h4_7Value (s : State) : Except Refusal Word := do
  let len := s.len.toNat
  let a ← fetch32 s 0
  let l ← fetch32 s (len - 4)
  return hashLen16M (s.len + (a.setWidth 64 <<< 3)) (l.setWidth 64) (mul s.len)

/-- R84. PRESUMED (unsafe, log entry 4): D16; the bias is a parameter. -/
def h8_16Value (s : State) : Except Refusal Word := do
  let len := s.len.toNat
  let w ← fetch64 s 0
  let b ← fetch64 s (len - 8)
  let m := mul s.len
  let a := w + biasWord s.params.aBias
  let c := rotr b 37 * m + a
  let d := (rotr a 25 + b) * m
  return hashLen16M c d m

/-- R87. PRESUMED (unsafe, log entry 4): D17. -/
def h17_32Value (s : State) : Except Refusal Word := do
  let len := s.len.toNat
  let w0 ← fetch64 s 0
  let b ← fetch64 s 8
  let wc ← fetch64 s (len - 8)
  let wd ← fetch64 s (len - 16)
  let m := mul s.len
  let a := w0 * K1
  let c := wc * m
  let d := wd * K2
  let s1 := rotr (a + b) 43 + rotr c 30 + d
  let s2 := a + rotr (b + K2) 18 + c
  return hashLen16M s1 s2 m

/-- R90. PRESUMED (unsafe, log entry 4): D18. -/
def h33_64Value (s : State) : Except Refusal Word := do
  let len := s.len.toNat
  let wa ← fetch64 s 0
  let b ← fetch64 s 8
  let c ← fetch64 s (len - 24)
  let d ← fetch64 s (len - 32)
  let we ← fetch64 s 16
  let wf ← fetch64 s 24
  let g ← fetch64 s (len - 8)
  let wh ← fetch64 s (len - 16)
  let m := mul s.len
  let a := wa * K2
  let e := we * K2
  let f := wf * 9
  let h := wh * m
  let u := rotr (a + g) 43 + (rotr b 30 + c) * 9
  let v := ((a + g) ^^^ d) + f + 1
  let w := bswap64 ((u + v) * m) + h
  let x := rotr (e + f) 42 + c
  let y := (bswap64 ((v + w) * m) + g) * m
  let z := e + f + c
  let a2 := bswap64 ((x + z) * m + y) + b
  let b2 := shiftMix ((z + a2) * m + d + h) * m
  return b2 + x

/-- `H0 buf, len` (R81). -/
def execH0 (len : Nat) (s : State) : Host.Outcome State Fault Refusal :=
  oneStepCall 0 0 h0Value len s

/-- `H1_3 buf, len` (R82). -/
def execH1_3 (len : Nat) (s : State) : Host.Outcome State Fault Refusal :=
  oneStepCall 1 3 h1_3Value len s

/-- `H4_7 buf, len` (R83). -/
def execH4_7 (len : Nat) (s : State) : Host.Outcome State Fault Refusal :=
  oneStepCall 4 7 h4_7Value len s

/-- `H8_16 buf, len` (R84). -/
def execH8_16 (len : Nat) (s : State) : Host.Outcome State Fault Refusal :=
  oneStepCall 8 16 h8_16Value len s

/-- `H17_32 buf, len` (R87). -/
def execH17_32 (len : Nat) (s : State) : Host.Outcome State Fault Refusal :=
  oneStepCall 17 32 h17_32Value len s

/-- `H33_64 buf, len` (R90). -/
def execH33_64 (len : Nat) (s : State) : Host.Outcome State Fault Refusal :=
  oneStepCall 33 64 h33_64Value len s

/-- `SMALL0TO16 buf, len` (R80): a priority chain over the four bands; refused with a length above 16. -/
def execSmall0to16 (len : Nat) (s : State) : Host.Outcome State Fault Refusal :=
  match beginCall 0 16 len s with
  | .error r => .refused r
  | .ok _    =>
    if 8 ≤ len then execH8_16 len s
    else if 4 ≤ len then execH4_7 len s
    else if 0 < len then execH1_3 len s
    else execH0 len s

end Sys2Proof.Machine
end

