-- ==== Sys2Proof/Machine/Router.lean ====
section
/-! DEFINITION. The dispatcher's function (spec/46_dispatcher.md R103). -/

namespace Sys2Proof.Machine

/-- `HASH64 buf, len` (R103): routed by the length alone (R105). -/
def execHash64 (len : Nat) (s : State) : Host.Outcome State Fault Refusal :=
  if len ≤ 16 then execSmall0to16 len s
  else if len ≤ 32 then execH17_32 len s
  else if len ≤ 64 then execH33_64 len s
  else execH65p len s

end Sys2Proof.Machine
end

