-- ==== Sys2Proof/Machine/Dispatch.lean ====
section
/-! DEFINITION. The dispatch of an operation to its meaning, one arm per row of spec/opcode_table.json. -/

namespace Sys2Proof.Machine

def exec (i : Instr) (s : State) : Host.Outcome State Fault Refusal :=
  match i with
  | .h0 len => Sys2Proof.Machine.execH0 len s
  | .h1_3 len => Sys2Proof.Machine.execH1_3 len s
  | .h4_7 len => Sys2Proof.Machine.execH4_7 len s
  | .h8_16 len => Sys2Proof.Machine.execH8_16 len s
  | .h17_32 len => Sys2Proof.Machine.execH17_32 len s
  | .h33_64 len => Sys2Proof.Machine.execH33_64 len s
  | .h65p len => Sys2Proof.Machine.execH65p len s
  | .hash64 len => Sys2Proof.Machine.execHash64 len s
  | .small0to16 len => Sys2Proof.Machine.execSmall0to16 len s
  | .h65pSeed => Sys2Proof.Machine.execH65pSeed s
  | .h65pChunk => Sys2Proof.Machine.execH65pChunk s
  | .h65pFinal => Sys2Proof.Machine.execH65pFinal s
  | .fetch64 off => Sys2Proof.Machine.execFetch64 off s
  | .fetch32 off => Sys2Proof.Machine.execFetch32 off s
  | .fetch8 off => Sys2Proof.Machine.execFetch8 off s
  | .loadBytes off n => Sys2Proof.Machine.execLoadBytes off n s
  | .rotr v k => Sys2Proof.Machine.execRotr v k s
  | .shiftMix v => Sys2Proof.Machine.execShiftMix v s
  | .hashLen16M u v mul => Sys2Proof.Machine.execHashLen16M u v mul s
  | .hashLen16 u v => Sys2Proof.Machine.execHashLen16 u v s
  | .weakHash32 w x y z a b => Sys2Proof.Machine.execWeakHash32 w x y z a b s
  | .weakHash32M off a b => Sys2Proof.Machine.execWeakHash32M off a b s
  | .bswap64 v => Sys2Proof.Machine.execBswap64 v s

end Sys2Proof.Machine
end

