-- ==== Sys2Proof/Machine/Sequencer.lean ====
section
/-! DEFINITION. The sequencing of calls (spec/46_dispatcher.md R106, R107) and the host's actions
(spec/60_exceptions.md R117, spec/70_reset_and_hazards.md R121 to R123): what Step.lean's step does. -/

namespace Sys2Proof.Machine

/-- The host input of this step: the head of the list, quiet when there is none (log entry 1). -/
def currentInput (s : State) : HostInput :=
  match s.inputs with
  | []     => .quiet
  | h :: _ => h

/-- The state with this step's host input taken. -/
def takeInput (s : State) : State := { s with inputs := s.inputs.tail }

/-- Reset (R121, R122): PHASE is IDLE and any call is abandoned; the buffer, the parameters and what the host does next
are no part of it. DESIGN CHOICE (unsafe, log entry 7): the registers R121 leaves unspecified hold State.reset's values. -/
def resetUnit (s : State) : State :=
  { State.reset with buf := s.buf, params := s.params, inputs := s.inputs, ok := s.ok }

/-- The first step of the operation a START selects (R106): the whole band operation, or the seed step of H65P. -/
def firstStep (i : Instr) (s : State) : Host.Outcome State Fault Refusal :=
  match i with
  | .h65p len =>
    match beginCall 65 (maxLen s) len s with
    | .error r => .refused r
    | .ok s1   => exec .h65pSeed s1
  | j => exec j s

/-- START (R107): the command word is decoded by R54 and R55. -/
def startStep (len : Nat) (s : State) : Host.Outcome State Fault Refusal :=
  match decode s.params len with
  | .error .lenRange => .refused .lenRange
  | .ok i            => firstStep i s

/-- The step of a unit the host leaves alone (R106). In IDLE and DONE nothing is enabled and nothing changes
(R119, R120; log entry 16). -/
def autoStep (s : State) : Host.Outcome State Fault Refusal :=
  match s.phase with
  | .idle   => .next s
  | .seeded => exec .h65pChunk s
  | .loop   => exec .h65pChunk s
  | .looped => exec .h65pFinal s
  | .done   => .next s

/-- The host writes its memory at the offset `lowest` or above, and leaves `m` behind. During a call no agent may write
the buffer, whatever the values (R52, R124, U5), so an action that writes below x[LEN] is refused; what stands at or
beyond x[LEN] is no part of the buffer (R13; DEDUCED, safe, log entry 9). -/
def changeBuffer (lowest : Nat) (m : Memory) (s : State) : Host.Outcome State Fault Refusal :=
  if busyFlag s && decide (lowest < s.len.toNat) then .refused .bufferChanged else .next { s with buf := m }

/-- The host reads RESULT: it may do so only while DONE = 1 (R129, R16); otherwise RESULT holds no value and the read is
the fault of the model that R29, D27 and U10 give it ("Not any value"). -/
def readResult (s : State) : Host.Outcome State Fault Refusal :=
  if doneFlag s then .next (deliver (.u64 s.result) s) else .fault (.unwrittenRead "RESULT")

/-- One step under one host input. -/
def inputStep (h : HostInput) (s : State) : Host.Outcome State Fault Refusal :=
  match h with
  | .quiet       => autoStep s
  | .reset       => .next (resetUnit s)
  | .start len   => startStep len s
  | .place bytes => changeBuffer 0 (placeBytes bytes) s
  | .write off b => changeBuffer off (writeByte off b s.buf) s
  | .readBusy    => .next (deliver (.flag (busyFlag s)) s)
  | .readDone    => .next (deliver (.flag (doneFlag s)) s)
  | .readResult  => readResult s

/-- One step of the machine: the host input is taken and acted on. -/
def unitStep (s : State) : Host.Outcome State Fault Refusal :=
  inputStep (currentInput s) (takeInput s)

/-- A START of the command word `w` presented to a unit that can accept it (R106: from IDLE or DONE). -/
def presentWord (s : State) (w : Nat) : State :=
  { s with inputs := .start w :: s.inputs, phase := if busyFlag s then .idle else s.phase }

end Sys2Proof.Machine
end

