-- ==== Sys2Proof/Machine/Step.lean ====
section
/-! DEFINITION. The step of the machine, and the placing of a command word where the next step takes it. -/

namespace Sys2Proof.Machine

/-- One step of H64 (spec/46_dispatcher.md R106), under the host's input of that step. -/
def step (s : State) : Host.Outcome State Fault Refusal := unitStep s

/-- `s` with the command word presented by START, so that the next step runs it (log entry 18). The bytes of the input
are data of the call, not part of the command (R53): the buffer is left as it is. -/
def State.withFetchWord (s : State) (_nbits w : Nat) : State := presentWord s w

end Sys2Proof.Machine
end

