-- ==== Sys2Proof/Safety.lean ====
section
/-! DEFINITION. What a state of a unit within the contract looks like (spec/10_state.md R14, R18;
spec/45_rolling_engine_64plus.md R96; spec/20_memory.md R51), in the terms the statements use. -/

namespace Sys2Proof.Machine

/-- The buffer is readable for `len` bytes (R43, R111). -/
def Readable (len : Nat) (s : State) : Prop := len ≤ extent s.buf

/-- What holds while a call of the large engine is in progress: the length is one of H65P and the buffer readable for
it (R92, R111); POS and REM are multiples of 64 with the sum R96 gives; PHASE says where the loop stands (R17). -/
structure InCall (s : State) : Prop where
  long     : 65 ≤ s.len.toNat
  readable : Readable s.len.toNat s
  sum      : s.pos.toNat + s.rem.toNat = 64 * nchunks s.params.chunkMode s.len.toNat
  aligned  : s.rem.toNat % 64 = 0
  seeded   : s.phase = .seeded → s.pos = 0
  loop     : s.phase = .loop → 64 ≤ s.pos.toNat
  looped   : s.phase = .looped ↔ s.rem = 0

/-- The invariant of the machine: the buffer is in canonical form, LEN, POS and REM fit LEN_W bits (R14, R18), and a
call in progress is as `InCall` says. -/
structure Inv (s : State) : Prop where
  bufWf  : Memory.wf s.buf = true
  lenFit : s.len.toNat < 2 ^ s.params.lenW
  posFit : s.pos.toNat < 2 ^ s.params.lenW
  remFit : s.rem.toNat < 2 ^ s.params.lenW
  call   : busyFlag s = true → InCall s

end Sys2Proof.Machine
end

