-- ==== Sys2Proof/WellFormed.lean ====
section
/-! DEFINITION. What the operands of an operation must satisfy whatever the state: the length lies in the operation's
band and fits LEN_W bits, a rotate amount is below 64, LOADBYTES takes at most 8 bytes (spec/60_exceptions.md R111).
An operation with other operands is refused by its meaning, never given a value. -/

namespace Sys2Proof

def Instr.wellFormed (p : Params) : Instr → Bool
  | .h0 len          => len == 0
  | .h1_3 len        => decide (1 ≤ len) && decide (len ≤ 3)
  | .h4_7 len        => decide (4 ≤ len) && decide (len ≤ 7)
  | .h8_16 len       => decide (8 ≤ len) && decide (len ≤ 16)
  | .h17_32 len      => decide (17 ≤ len) && decide (len ≤ 32)
  | .h33_64 len      => decide (33 ≤ len) && decide (len ≤ 64)
  | .h65p len        => decide (65 ≤ len) && decide (len < 2 ^ p.lenW)
  | .hash64 len      => decide (len < 2 ^ p.lenW)
  | .small0to16 len  => decide (len ≤ 16)
  | .h65pSeed        => true
  | .h65pChunk       => true
  | .h65pFinal       => true
  | .fetch64 _       => true
  | .fetch32 _       => true
  | .fetch8 _        => true
  | .loadBytes _ n   => decide (n < 9)
  | .rotr _ k        => decide (k < 64)
  | .shiftMix _      => true
  | .hashLen16M _ _ _       => true
  | .hashLen16 _ _          => true
  | .weakHash32 _ _ _ _ _ _ => true
  | .weakHash32M _ _ _      => true
  | .bswap64 _              => true

end Sys2Proof
end

