-- ==== Sys2Proof/Certificates/Slice0/Obligations.lean ====
section
/-! DEFINITION. The statements for the provers. `Ref` writes the arithmetic of the spec's rules a second time, in closed
form over the bytes of the buffer, so that a result statement compares two texts: rotates are the library's, a load is
the sum of spec/20_memory.md R33, the weak hash is the closed form of spec/41_mixing_primitives.md R77, and the large
engine is a fold over its chunks. -/

namespace Sys2Proof.Ref

open Sys2Proof.Machine

/-- The constants of spec/00_scope.md R7, written out (log entry 3; K2 is the source's own). -/
def k0 : Word := 0xc3a5c85c97cb3127

def k1 : Word := 0xb492b66fbe98f273

def k2 : Word := 0x9ae16a3b2f90404f

def kMul : Word := 0x9ddfea08eb382d69

/-- The byte at an offset of the buffer, 0 where none is listed. -/
def byte (m : Memory) (a : Nat) : Byte := (readByte a m).getD 0

/-- The number of a little-endian load of `n` bytes (spec/20_memory.md R33). -/
def load (m : Memory) (off n : Nat) : Nat := ∑ i ∈ Finset.range n, (byte m (off + i)).toNat * 2 ^ (8 * i)

/-- An 8-byte load as a word (R63). -/
def word (m : Memory) (off : Nat) : Word := BitVec.ofNat 64 (load m off 8)

/-- A length as a 64-bit addend (R14). -/
def lenWord (len : Nat) : Word := BitVec.ofNat 64 len

/-- `v XOR floor(v / 2^47)` (R74). -/
def fold47 (v : Word) : Word := v ^^^ BitVec.ofNat 64 (v.toNat / 2 ^ 47)

/-- The 16-to-8-byte compression as one expression (R75; log entry 4). -/
def squeeze (u v m : Word) : Word := fold47 ((v ^^^ fold47 ((u ^^^ v) * m)) * m) * m

/-- The closed form of the weak hash (R77; log entry 4). -/
def weak (w x y z a b : Word) : Word × Word :=
  (a + w + x + y + z, (b + a + w + z).rotateRight 21 + (a + w + x + y).rotateRight 44 + a + w)

/-- The weak hash of the 32 bytes at `off` (R78; log entry 4). -/
def weakAt (m : Memory) (off : Nat) (a b : Word) : Word × Word :=
  weak (word m off) (word m (off + 8)) (word m (off + 16)) (word m (off + 24)) a b

/-- The word with its eight bytes reversed (R79). -/
def reversed (v : Word) : Word :=
  BitVec.ofNat 64 (∑ i ∈ Finset.range 8, v.toNat / 2 ^ (8 * i) % 256 * 2 ^ (8 * (7 - i)))

/-- The length-derived multiplier (R58). -/
def multiplier (len : Nat) : Word := BitVec.ofNat 64 (0x9ae16a3b2f90404f + 2 * len)

/-- Band 1 to 3 (R82; log entries 3 and 4): the two sums are exact natural numbers, as R82 says they do not wrap. -/
def band1to3 (m : Memory) (len : Nat) : Word :=
  let y := (byte m 0).toNat + 256 * (byte m (len / 2)).toNat
  let z := len + 4 * (byte m (len - 1)).toNat
  fold47 (BitVec.ofNat 64 y * k2 ^^^ BitVec.ofNat 64 z * k0) * k2

/-- Band 4 to 7 (R83; log entry 4). -/
def band4to7 (m : Memory) (len : Nat) : Word :=
  squeeze (BitVec.ofNat 64 (len + 8 * load m 0 4)) (BitVec.ofNat 64 (load m (len - 4) 4)) (multiplier len)

/-- Band 8 to 16 (R84; log entries 2 and 4), for either value of the bias. -/
def band8to16 (bias : Bias) (m : Memory) (len : Nat) : Word :=
  let a := word m 0 + (match bias with | .k2 => k2 | .zero => 0)
  let b := word m (len - 8)
  squeeze (b.rotateRight 37 * multiplier len + a) ((a.rotateRight 25 + b) * multiplier len) (multiplier len)

/-- Band 17 to 32 (R87; log entries 3 and 4). -/
def band17to32 (m : Memory) (len : Nat) : Word :=
  let a := word m 0 * k1
  let b := word m 8
  let c := word m (len - 8) * multiplier len
  squeeze ((a + b).rotateRight 43 + c.rotateRight 30 + word m (len - 16) * k2)
    (a + (b + k2).rotateRight 18 + c) (multiplier len)

/-- Band 33 to 64 (R90; log entry 4). -/
def band33to64 (m : Memory) (len : Nat) : Word :=
  let k := multiplier len
  let a := word m 0 * k2
  let b := word m 8
  let c := word m (len - 24)
  let d := word m (len - 32)
  let e := word m 16 * k2
  let f := word m 24 * 9
  let g := word m (len - 8)
  let h := word m (len - 16) * k
  let u := (a + g).rotateRight 43 + (b.rotateRight 30 + c) * 9
  let v := ((a + g) ^^^ d) + f + 1
  let w := reversed ((u + v) * k) + h
  let x := (e + f).rotateRight 42 + c
  let y := (reversed ((v + w) * k) + g) * k
  let z := e + f + c
  let a2 := reversed ((x + z) * k + y) + b
  fold47 ((z + a2) * k + d + h) * k + x

/-- The seeded accumulators (R94; log entries 3 and 4). -/
def seed (m : Memory) (len : Nat) : Acc :=
  let x := word m (len - 40)
  let y := word m (len - 16) + word m (len - 56)
  let z := squeeze (word m (len - 48) + lenWord len) (word m (len - 24)) kMul
  let v := weakAt m (len - 64) (lenWord len) z
  let w := weakAt m (len - 32) (y + k1) x
  { x := x * k1 + word m 0, y := y, z := z, v0 := v.1, v1 := v.2, w0 := w.1, w1 := w.2 }

/-- One chunk step on the 64 bytes at `p` (R97; log entries 3 and 4). -/
def chunk (m : Memory) (p : Nat) (r : Acc) : Acc :=
  let x := ((r.x + r.y + r.v0 + word m (p + 8)).rotateRight 37 * k1) ^^^ r.w1
  let y := (r.y + r.v1 + word m (p + 48)).rotateRight 42 * k1 + r.v0 + word m (p + 40)
  let z := (r.z + r.w0).rotateRight 33 * k1
  let v := weakAt m p (r.v1 * k1) (x + r.w0)
  let w := weakAt m (p + 32) (z + r.w1) (y + word m (p + 16))
  { x := z, y := y, z := x, v0 := v.1, v1 := v.2, w0 := w.1, w1 := w.2 }

/-- The accumulators after the chunk loop of `n` chunks (R100). -/
def afterChunks (m : Memory) (len n : Nat) : Acc :=
  (List.range n).foldl (fun r k => chunk m (64 * k) r) (seed m len)

/-- The combination of the accumulators (R99; log entry 4). -/
def combine (r : Acc) : Word :=
  squeeze (squeeze r.v0 r.w0 kMul + fold47 r.y * k1 + r.z) (squeeze r.v1 r.w1 kMul + r.x) kMul

/-- The number of chunks under either mode (R95; log entry 2). -/
def chunks (mode : ChunkMode) (len : Nat) : Nat :=
  match mode with
  | .floorLen       => len / 64
  | .floorLenMinus1 => (len - 1) / 64

/-- The 64-bit result of the public function (R80, R103). -/
def hash64 (p : Params) (m : Memory) (len : Nat) : Word :=
  if len = 0 then 0x9ae16a3b2f90404f#64
  else if len ≤ 3 then band1to3 m len
  else if len ≤ 7 then band4to7 m len
  else if len ≤ 16 then band8to16 p.aBias m len
  else if len ≤ 32 then band17to32 m len
  else if len ≤ 64 then band33to64 m len
  else combine (afterChunks m len (chunks p.chunkMode len))

end Sys2Proof.Ref

open Sys2Proof Sys2Proof.Machine

/-! ### The decode -/

/-- spec/30_encoding.md R54 and R55: which operation each length that fits LEN_W bits selects, on both levels. -/
def Obligations.LengthSelectsTheOperation : Prop :=
  ∀ (p : Params) (len : Nat), len < 2 ^ p.lenW →
    (len = 0 → decode p len = .ok (.h0 len)) ∧
    (1 ≤ len → len ≤ 3 → decode p len = .ok (.h1_3 len)) ∧
    (4 ≤ len → len ≤ 7 → decode p len = .ok (.h4_7 len)) ∧
    (8 ≤ len → len ≤ 16 → decode p len = .ok (.h8_16 len)) ∧
    (17 ≤ len → len ≤ 32 → decode p len = .ok (.h17_32 len)) ∧
    (33 ≤ len → len ≤ 64 → decode p len = .ok (.h33_64 len)) ∧
    (65 ≤ len → decode p len = .ok (.h65p len))

/-- The command words of programs P1 to P6 of spec/95_test_vectors.md section 4, and that of "hello", decode to the
operations named there, under every LEN_W that can carry them (200 and 128 need 8 bits). -/
def Obligations.SampleWordsDecode : Prop :=
  ∀ p : Params,
    decode p 0x0 = .ok (.h0 0) ∧ decode p 0x3 = .ok (.h1_3 3) ∧ decode p 0x5 = .ok (.h4_7 5) ∧
    decode p 0x10 = .ok (.h8_16 16) ∧ decode p 0x11 = .ok (.h17_32 17) ∧ decode p 0x28 = .ok (.h33_64 40) ∧
    decode p 0x41 = .ok (.h65p 65) ∧ decode p 0x44 = .ok (.h65p 68) ∧
    (8 ≤ p.lenW → decode p 0xc8 = .ok (.h65p 200) ∧ decode p 0x80 = .ok (.h65p 128))

/-- Decode and encode agree on all seven CALL rows (spec/30_encoding.md R53 to R57): a well-formed operation is read
back from its word, whatever LEN_W; and every word that is read is the word of the well-formed CALL operation read. -/
def Obligations.DecodeEncodeAgree : Prop :=
  (∀ (p : Params) (i : Instr), i.isCall = true → i.wellFormed p = true →
    ∃ w, encode i = some w ∧ decode p w = .ok i) ∧
  (∀ (p : Params) (w : Nat) (i : Instr), decode p w = .ok i →
    i.isCall = true ∧ i.wellFormed p = true ∧ encode i = some w)

/-- Every number of LEN_W bits is a command word, and no other number is (spec/30_encoding.md R57). -/
def Obligations.CommandWordsAreTheLengthsThatFit : Prop :=
  ∀ (p : Params) (w : Nat),
    (w < 2 ^ p.lenW ↔ ∃ i, decode p w = .ok i) ∧ (2 ^ p.lenW ≤ w ↔ decode p w = .error .lenRange)

/-! ### The buffer -/

/-- A placed buffer holds its bytes from offset 0 up and no other byte, is in canonical form, and is readable for
exactly its length (spec/10_state.md R13, spec/20_memory.md R31, R32). -/
def Obligations.PlacedBytesAreTheBuffer : Prop :=
  ∀ bs : List Byte,
    (∀ a, readByte a (placeBytes bs) = bs[a]?) ∧ Memory.wf (placeBytes bs) = true ∧
    extent (placeBytes bs) = bs.length

/-- A byte the host writes is read back, every other byte is as before, and the canonical form is kept
(spec/20_memory.md R41). -/
def Obligations.WrittenByteIsReadBack : Prop :=
  ∀ (m : Memory) (a : Nat) (b : Byte), Memory.wf m = true →
    readByte a (writeByte a b m) = some b ∧ (∀ c, c ≠ a → readByte c (writeByte a b m) = readByte c m) ∧
    Memory.wf (writeByte a b m) = true

/-- `Readable` says what the caller owes: each of the first `len` bytes is there (spec/20_memory.md R43). -/
def Obligations.ReadableMeansEveryByteIsThere : Prop :=
  ∀ (s : State) (len : Nat), Memory.wf s.buf = true →
    (Readable len s ↔ ∀ a, a < len → ∃ b, readByte a s.buf = some b)

/-! ### The primitives -/

/-- FETCH64, FETCH32 and FETCH8 inside the length and the buffer answer the little-endian number of their bytes,
zero-extended by its type, at any offset, and change nothing else (R33, R38, R63 to R65). That the value is delivered
in the field `ok` is the model's choice (log entry 6). -/
def Obligations.LoadsAnswerTheLittleEndianNumber : Prop :=
  ∀ (s : State) (off : Nat), Readable s.len.toNat s →
    (off + 8 ≤ s.len.toNat →
      exec (.fetch64 off) s = .next { s with ok := some (.u64 (BitVec.ofNat 64 (Ref.load s.buf off 8))) }) ∧
    (off + 4 ≤ s.len.toNat →
      exec (.fetch32 off) s = .next { s with ok := some (.u32 (BitVec.ofNat 32 (Ref.load s.buf off 4))) }) ∧
    (off + 1 ≤ s.len.toNat →
      exec (.fetch8 off) s = .next { s with ok := some (.u8 (BitVec.ofNat 8 (Ref.load s.buf off 1))) })

/-- A load that answers, in whatever state, answers the number of its bytes, which fits its width: so FETCH32 and FETCH8
widened to 64 bits have zero upper bits, never a copy of a sign (spec/20_memory.md R33, R39; spec/40_byte_loader.md). -/
def Obligations.LoadedNumberFitsItsWidth : Prop :=
  ∀ (s : State) (off : Nat),
    (∀ n v, loadNat s off n = .ok v → v = Ref.load s.buf off n ∧ v < 2 ^ (8 * n)) ∧
    (∀ v, fetch64 s off = .ok v → v.toNat = Ref.load s.buf off 8) ∧
    (∀ h, fetch32 s off = .ok h → (h.setWidth 64).toNat = Ref.load s.buf off 4 ∧ (h.setWidth 64).toNat < 2 ^ 32) ∧
    (∀ b, fetch8 s off = .ok b → (b.setWidth 64).toNat = Ref.load s.buf off 1 ∧ (b.setWidth 64).toNat < 2 ^ 8)

/-- A load that needs a byte at or beyond x[LEN], or one the buffer does not hold, is refused OutOfBounds: never a
value, never a fault (spec/20_memory.md R43): FETCH64, FETCH32, FETCH8, the window of WEAKHASH32M, and LOADBYTES of 1 to
8 bytes (whose operand is bounded as the other loads are by the model's choice, log entry 12). -/
def Obligations.LoadsOutsideAreRefused : Prop :=
  ∀ (s : State) (off : Nat) (a b : Word),
    (s.len.toNat < off + 8 → exec (.fetch64 off) s = .refused .outOfBounds) ∧
    (s.len.toNat < off + 4 → exec (.fetch32 off) s = .refused .outOfBounds) ∧
    (s.len.toNat < off + 1 → exec (.fetch8 off) s = .refused .outOfBounds) ∧
    (s.len.toNat < off + 32 → exec (.weakHash32M off a b) s = .refused .outOfBounds) ∧
    (∀ n, 1 ≤ n → n ≤ 8 → s.len.toNat < off + n → exec (.loadBytes off n) s = .refused .outOfBounds) ∧
    (∀ k, k < 8 → readByte (off + k) s.buf = none → exec (.fetch64 off) s = .refused .outOfBounds) ∧
    (∀ k, k < 4 → readByte (off + k) s.buf = none → exec (.fetch32 off) s = .refused .outOfBounds) ∧
    (readByte off s.buf = none → exec (.fetch8 off) s = .refused .outOfBounds) ∧
    (∀ k, k < 32 → readByte (off + k) s.buf = none → exec (.weakHash32M off a b) s = .refused .outOfBounds) ∧
    (∀ n k, n ≤ 8 → k < n → readByte (off + k) s.buf = none → exec (.loadBytes off n) s = .refused .outOfBounds)

/-- LOADBYTES packs 0 to 8 bytes little-endian; with no byte it answers 0, at every offset; with 8 it answers
what FETCH64 answers; 9 or more are refused (spec/40_byte_loader.md R66). The start of the buffer operand, that no bound
applies to no byte, and the name of the refusal are the model's (log entry 12). -/
def Obligations.LoadBytesPacksLittleEndian : Prop :=
  (∀ (s : State) (off n : Nat), n < 9 → Readable s.len.toNat s → off + n ≤ s.len.toNat →
    exec (.loadBytes off n) s = .next { s with ok := some (.u64 (BitVec.ofNat 64 (Ref.load s.buf off n))) }) ∧
  (∀ (s : State) (off : Nat), exec (.loadBytes off 0) s = .next { s with ok := some (.u64 0) }) ∧
  (∀ (s : State) (off : Nat), exec (.loadBytes off 8) s = exec (.fetch64 off) s) ∧
  (∀ (s : State) (off n : Nat), 9 ≤ n → exec (.loadBytes off n) s = .refused .loadLength)

/-- ROTR moves bit `(i + s) mod 64` to bit `i` for every amount from 0 to 63, 0 being the identity, and changes nothing
else; an amount of 64 or more is refused ShiftRange (spec/41_mixing_primitives.md R73). -/
def Obligations.RotateRightMovesTheBits : Prop :=
  (∀ (s : State) (v : Word) (k : Nat), k < 64 →
    ∃ r : Word, exec (.rotr v k) s = .next { s with ok := some (.u64 r) } ∧ (k = 0 → r = v) ∧
      ∀ i, i < 64 → r.getLsbD i = v.getLsbD ((i + k) % 64)) ∧
  (∀ (s : State) (v : Word) (k : Nat), 64 ≤ k → exec (.rotr v k) s = .refused .shiftRange)

/-- SHIFTMIX answers `v XOR (v >> 47)` and changes nothing else; values below 2^47 are unchanged, the top 47 bits are
kept, only bits 16 to 0 can change (spec/41_mixing_primitives.md R74, with its examples). -/
def Obligations.ShiftMixFoldsBitsDown : Prop :=
  (∀ (s : State) (v : Word), ∃ r : Word, exec (.shiftMix v) s = .next { s with ok := some (.u64 r) } ∧
    r = v ^^^ (v >>> 47) ∧ (v.toNat < 2 ^ 47 → r = v) ∧
    (∀ i, 17 ≤ i → i < 64 → r.getLsbD i = v.getLsbD i)) ∧
  shiftMix 0x0 = 0x0 ∧ shiftMix 0x00007fffffffffff = 0x00007fffffffffff ∧
  shiftMix 0x0000800000000000 = 0x0000800000000001 ∧ shiftMix 0x8000000000000000 = 0x8000000000010000 ∧
  shiftMix 0xffffffffffffffff = 0xfffffffffffe0000 ∧ shiftMix 0x0123456789abcdef = 0x0123456789abcfa9

/-- HASHLEN16M answers the five-step compression and changes nothing else; with it the corner cases of
spec/41_mixing_primitives.md R75 hold. The operand of the second multiply is the spec's decision D10 (log entry 4). -/
def Obligations.CompressionOfTwoWords : Prop :=
  (∀ (s : State) (u v m : Word),
    exec (.hashLen16M u v m) s = .next { s with ok := some (.u64 (Ref.squeeze u v m)) }) ∧
  (∀ m : Word, hashLen16M 0 0 m = 0) ∧ (∀ u v : Word, hashLen16M u v 0 = 0) ∧
  (∀ u m : Word, hashLen16M u u m = shiftMix (u * m) * m) ∧
  (∀ u v : Word, hashLen16M u v 1 = shiftMix (v ^^^ shiftMix (u ^^^ v)))

/-- HASHLEN16 is the compression with the fixed multiplier 0x9ddfea08eb382d69 and changes nothing else
(spec/41_mixing_primitives.md section 3; decisions D8 and D11, log entries 3 and 4). -/
def Obligations.CompressionWithTheFixedMultiplier : Prop :=
  ∀ (s : State) (u v : Word),
    exec (.hashLen16 u v) s = .next { s with ok := some (.u64 (Ref.squeeze u v 0x9ddfea08eb382d69#64)) }

/-- WEAKHASH32 answers the closed form the spec gives for its six steps and changes nothing else
(spec/41_mixing_primitives.md section 4; decision D12, log entry 4). -/
def Obligations.WeakHashClosedForm : Prop :=
  ∀ (s : State) (w x y z a b : Word),
    exec (.weakHash32 w x y z a b) s =
      .next { s with ok := some (.pair (Ref.weak w x y z a b).1 (Ref.weak w x y z a b).2) }

/-- WEAKHASH32M is the weak hash of the four ascending words of its window and changes nothing else
(spec/41_mixing_primitives.md section 4; decision D12, log entry 4). -/
def Obligations.WeakHashOfAWindow : Prop :=
  ∀ (s : State) (off : Nat) (a b : Word), Readable s.len.toNat s → off + 32 ≤ s.len.toNat →
    exec (.weakHash32M off a b) s =
      .next { s with ok := some (.pair (Ref.weakAt s.buf off a b).1 (Ref.weakAt s.buf off a b).2) }

/-- BSWAP64 reverses the order of the eight bytes and changes nothing else; applied twice it gives the word back
(spec/41_mixing_primitives.md R79; decision D13). -/
def Obligations.ByteReversal : Prop :=
  ∀ (s : State) (v : Word), ∃ r : Word,
    exec (.bswap64 v) s = .next { s with ok := some (.u64 r) } ∧
    (∀ i, i < 8 → r.extractLsb' (8 * i) 8 = v.extractLsb' (8 * (7 - i)) 8) ∧
    exec (.bswap64 r) s = .next { s with ok := some (.u64 v) }

/-! ### The operands derived from the length -/

/-- The multiplier is K2 + 2 * len modulo 2^64, always odd, and does not wrap for the lengths of the bands that use it
(spec/30_encoding.md R58). -/
def Obligations.LengthMultiplier : Prop :=
  ∀ len : Word,
    (mul len).toNat = (0x9ae16a3b2f90404f + 2 * len.toNat) % 2 ^ 64 ∧ (mul len).toNat % 2 = 1 ∧
    (4 ≤ len.toNat → len.toNat ≤ 64 → (mul len).toNat = 0x9ae16a3b2f90404f + 2 * len.toNat)

/-- The number of chunks of a length of the large engine is at least 1 and its chunks lie in the buffer under either
mode; the modes differ, by one chunk, exactly at the multiples of 64 (spec/45_rolling_engine_64plus.md section 3;
decision D22, log entry 2). -/
def Obligations.ChunkCountBounds : Prop :=
  ∀ len : Nat, 65 ≤ len →
    (∀ mode, 1 ≤ nchunks mode len ∧ 64 * nchunks mode len ≤ len ∧ len ≤ 64 * nchunks mode len + 64) ∧
    nchunks .floorLen len = nchunks .floorLenMinus1 len + (if len % 64 = 0 then 1 else 0)

/-! ### The bands -/

/-- H0 (spec/42_small_hash_0to16.md R81): the operation of length 0 alone; whatever the buffer holds, or with no buffer
at all, the call ends with RESULT = K2, LEN = 0 and PHASE = DONE, nothing else changes, and HASH64 of length 0 does the
same. -/
def Obligations.EmptyInputHashesToK2 : Prop :=
  ∀ s : State,
    (∀ len, decode s.params len = .ok (.h0 len) ↔ len = 0) ∧
    (busyFlag s = false →
      exec (.h0 0) s = .next { s with len := 0, result := 0x9ae16a3b2f90404f#64, phase := .done } ∧
      exec (.hash64 0) s = .next { s with len := 0, result := 0x9ae16a3b2f90404f#64, phase := .done })

/-- H1_3: every call of 1 to 3 readable bytes completes with the result of the band (spec/42_small_hash_0to16.md;
decisions D6, D14, log entries 3 and 4), and only LEN, RESULT and PHASE change. -/
def Obligations.BandOneToThreeCompletes : Prop :=
  ∀ (s : State) (len : Nat), busyFlag s = false → 1 ≤ len → len ≤ 3 → Readable len s →
    exec (.h1_3 len) s =
      .next { s with len := BitVec.ofNat 64 len, result := Ref.band1to3 s.buf len, phase := .done }

/-- H4_7: every call of 4 to 7 readable bytes completes with the result of the band (spec/42_small_hash_0to16.md;
decision D15, log entry 4), and only LEN, RESULT and PHASE change. -/
def Obligations.BandFourToSevenCompletes : Prop :=
  ∀ (s : State) (len : Nat), busyFlag s = false → 4 ≤ len → len ≤ 7 → Readable len s →
    exec (.h4_7 len) s =
      .next { s with len := BitVec.ofNat 64 len, result := Ref.band4to7 s.buf len, phase := .done }

/-- H8_16: every call of 8 to 16 readable bytes completes with the result of the band under either bias
(spec/42_small_hash_0to16.md; decision D16, log entries 2 and 4), and only LEN, RESULT and PHASE change. -/
def Obligations.BandEightToSixteenCompletes : Prop :=
  ∀ (s : State) (len : Nat), busyFlag s = false → 8 ≤ len → len ≤ 16 → Readable len s →
    exec (.h8_16 len) s =
      .next { s with len := BitVec.ofNat 64 len, result := Ref.band8to16 s.params.aBias s.buf len, phase := .done }

/-- H17_32: every call of 17 to 32 readable bytes completes with the result of the band (spec/43_small_hash_17to32.md;
decisions D7, D17, log entries 3 and 4), and only LEN, RESULT and PHASE change. -/
def Obligations.BandSeventeenToThirtyTwoCompletes : Prop :=
  ∀ (s : State) (len : Nat), busyFlag s = false → 17 ≤ len → len ≤ 32 → Readable len s →
    exec (.h17_32 len) s =
      .next { s with len := BitVec.ofNat 64 len, result := Ref.band17to32 s.buf len, phase := .done }

/-- H33_64: every call of 33 to 64 readable bytes completes with the result of the band (spec/44_small_hash_33to64.md;
decision D18, log entry 4), and only LEN, RESULT and PHASE change. -/
def Obligations.BandThirtyThreeToSixtyFourCompletes : Prop :=
  ∀ (s : State) (len : Nat), busyFlag s = false → 33 ≤ len → len ≤ 64 → Readable len s →
    exec (.h33_64 len) s =
      .next { s with len := BitVec.ofNat 64 len, result := Ref.band33to64 s.buf len, phase := .done }

/-- SMALL0TO16 is the priority chain over the four bands of the tier, in every state: for each length up to 16 it does
what the selected band does; above 16 a call that could otherwise begin is refused BandMismatch
(spec/42_small_hash_0to16.md R80). -/
def Obligations.SmallTierSelectsItsBand : Prop :=
  ∀ (s : State) (len : Nat),
    (8 ≤ len → len ≤ 16 → exec (.small0to16 len) s = exec (.h8_16 len) s) ∧
    (4 ≤ len → len ≤ 7 → exec (.small0to16 len) s = exec (.h4_7 len) s) ∧
    (1 ≤ len → len ≤ 3 → exec (.small0to16 len) s = exec (.h1_3 len) s) ∧
    (len = 0 → exec (.small0to16 len) s = exec (.h0 len) s) ∧
    (16 < len → len < 2 ^ s.params.lenW → busyFlag s = false → exec (.small0to16 len) s = .refused .bandMismatch)

/-- SMALL0TO16 completes for every length up to 16 with that many readable bytes, with the result of the public
function, and only LEN, RESULT and PHASE change (spec/42_small_hash_0to16.md; log entries 2, 3 and 4). -/
def Obligations.SmallTierCompletes : Prop :=
  ∀ (s : State) (len : Nat), busyFlag s = false → len ≤ 16 → Readable len s →
    exec (.small0to16 len) s =
      .next { s with len := BitVec.ofNat 64 len, result := Ref.hash64 s.params s.buf len, phase := .done }

/-! ### The large engine -/

/-- H65P.SEED: from IDLE or DONE, with a latched length of 65 or more and that many readable bytes, the seed step
writes the accumulators, POS = 0, REM = 64 * NCHUNKS(len) and PHASE = SEEDED, and nothing else
(spec/45_rolling_engine_64plus.md section 2; decision D19, log entries 3 and 4). -/
def Obligations.SeedStepCompletes : Prop :=
  ∀ s : State, busyFlag s = false → 65 ≤ s.len.toNat → s.len.toNat < 2 ^ s.params.lenW → Readable s.len.toNat s →
    exec .h65pSeed s =
      .next { s with
        acc := Ref.seed s.buf s.len.toNat, pos := 0,
        rem := BitVec.ofNat 64 (64 * Ref.chunks s.params.chunkMode s.len.toNat), phase := .seeded }

/-- H65P.CHUNK: in SEEDED or LOOP, with a chunk left that lies in the readable buffer, the chunk step updates the
accumulators, moves POS and REM by 64 and leaves LOOP or, when no chunk is left, LOOPED; nothing else changes
(spec/45_rolling_engine_64plus.md section 3; decision D20, log entries 3 and 4). -/
def Obligations.ChunkStepCompletes : Prop :=
  ∀ s : State, s.phase = .seeded ∨ s.phase = .loop → 64 ≤ s.rem.toNat → s.pos.toNat + 64 ≤ s.len.toNat →
    Readable s.len.toNat s →
    exec .h65pChunk s =
      .next { s with
        acc := Ref.chunk s.buf s.pos.toNat s.acc, pos := s.pos + 64, rem := s.rem - 64,
        phase := if s.rem = 64 then .looped else .loop }

/-- H65P.FINAL: in LOOPED the finalize step writes RESULT and PHASE = DONE and nothing else; it reads no memory
(spec/45_rolling_engine_64plus.md section 4; decision D21, log entries 3 and 4). -/
def Obligations.FinalStepCompletes : Prop :=
  ∀ s : State, s.phase = .looped →
    exec .h65pFinal s = .next { s with result := Ref.combine s.acc, phase := .done }

/-- H65P: every call of 65 or more readable bytes that fits LEN_W bits completes: seed, the chunk step once for each of
the NCHUNKS(len) chunks in ascending order, finalize (spec/45_rolling_engine_64plus.md R100; log entries 2, 3, 4, 13
and 15). -/
def Obligations.LargeEngineCompletes : Prop :=
  ∀ (s : State) (len : Nat), busyFlag s = false → 65 ≤ len → len < 2 ^ s.params.lenW → Readable len s →
    exec (.h65p len) s =
      .next { s with
        len := BitVec.ofNat 64 len,
        acc := Ref.afterChunks s.buf len (Ref.chunks s.params.chunkMode len),
        pos := BitVec.ofNat 64 (64 * Ref.chunks s.params.chunkMode len), rem := 0,
        result := Ref.combine (Ref.afterChunks s.buf len (Ref.chunks s.params.chunkMode len)), phase := .done }

/-! ### The public function -/

/-- HASH64 (spec/46_dispatcher.md R103, R104): within the contract every call of every length completes, the buffer is
unchanged, and RESULT is the public function of the bytes and the length (log entries 2, 3 and 4 name what the
arithmetic rests on). -/
def Obligations.PublicFunctionIsTotalAndCorrect : Prop :=
  ∀ (s : State) (len : Nat), busyFlag s = false → len < 2 ^ s.params.lenW → Readable len s →
    ∃ t, exec (.hash64 len) s = .next t ∧ t.result = Ref.hash64 s.params s.buf len ∧ doneFlag t = true ∧
      t.len.toNat = len ∧ t.buf = s.buf

/-- The routing of HASH64 (spec/46_dispatcher.md R103, R105): by the length alone, in every state. -/
def Obligations.DispatcherRoutesByLength : Prop :=
  ∀ (s : State) (len : Nat),
    (len ≤ 16 → exec (.hash64 len) s = exec (.small0to16 len) s) ∧
    (17 ≤ len → len ≤ 32 → exec (.hash64 len) s = exec (.h17_32 len) s) ∧
    (33 ≤ len → len ≤ 64 → exec (.hash64 len) s = exec (.h33_64 len) s) ∧
    (65 ≤ len → exec (.hash64 len) s = exec (.h65p len) s)

/-- HASH64 completes exactly within the contract, and outside it is refused for the first reason that applies, in the
order LenRange, Busy, OutOfBounds (spec/60_exceptions.md section 1, rules on misuse and priority; that the whole buffer
is checked at START is log entry 10). -/
def Obligations.CallRefusedExactlyOutsideTheContract : Prop :=
  ∀ (s : State) (len : Nat),
    (2 ^ s.params.lenW ≤ len → exec (.hash64 len) s = .refused .lenRange) ∧
    (len < 2 ^ s.params.lenW → busyFlag s = true → exec (.hash64 len) s = .refused .busy) ∧
    (len < 2 ^ s.params.lenW → busyFlag s = false → ¬ Readable len s → exec (.hash64 len) s = .refused .outOfBounds) ∧
    ((∃ t, exec (.hash64 len) s = .next t) ↔ len < 2 ^ s.params.lenW ∧ busyFlag s = false ∧ Readable len s)

/-- A band operation with a length that fits but lies outside its band is refused BandMismatch, and SMALL0TO16 with a
length above 16 (spec/20_memory.md R44, spec/60_exceptions.md R111; where it stands in the order is log entry 10). -/
def Obligations.LengthOutsideTheBandIsRefused : Prop :=
  ∀ (s : State) (len : Nat), busyFlag s = false → len < 2 ^ s.params.lenW →
    (len ≠ 0 → exec (.h0 len) s = .refused .bandMismatch) ∧
    (len < 1 ∨ 3 < len → exec (.h1_3 len) s = .refused .bandMismatch) ∧
    (len < 4 ∨ 7 < len → exec (.h4_7 len) s = .refused .bandMismatch) ∧
    (len < 8 ∨ 16 < len → exec (.h8_16 len) s = .refused .bandMismatch) ∧
    (len < 17 ∨ 32 < len → exec (.h17_32 len) s = .refused .bandMismatch) ∧
    (len < 33 ∨ 64 < len → exec (.h33_64 len) s = .refused .bandMismatch) ∧
    (len < 65 → exec (.h65p len) s = .refused .bandMismatch) ∧
    (16 < len → exec (.small0to16 len) s = .refused .bandMismatch)

/-- The steps of the large engine outside their phases: CHUNK and FINAL are refused notEnabled, SEED is refused busy
while a call is in progress (spec/45_rolling_engine_64plus.md R96, R99; the reason's name is log entry 11). -/
def Obligations.StepsOutsideTheirPhaseAreRefused : Prop :=
  ∀ s : State,
    (s.phase ≠ .seeded → s.phase ≠ .loop → exec .h65pChunk s = .refused .notEnabled) ∧
    (s.phase ≠ .looped → exec .h65pFinal s = .refused .notEnabled) ∧
    (busyFlag s = true → exec .h65pSeed s = .refused .busy)

/-- Purity (spec/46_dispatcher.md R109, spec/20_memory.md R51, spec/70_reset_and_hazards.md R125): two units, whatever
they did before and whatever else their registers hold, that are given the same first `len` bytes both complete with
the same result; no byte at or beyond offset `len` matters, nor does LEN_W. -/
def Obligations.ResultDependsOnTheBytesAlone : Prop :=
  ∀ (s₁ s₂ : State) (len : Nat),
    busyFlag s₁ = false → busyFlag s₂ = false → len < 2 ^ s₁.params.lenW → len < 2 ^ s₂.params.lenW →
    Readable len s₁ → Readable len s₂ →
    s₁.params.chunkMode = s₂.params.chunkMode → s₁.params.aBias = s₂.params.aBias →
    (∀ a, a < len → readByte a s₁.buf = readByte a s₂.buf) →
    ∃ t₁ t₂, exec (.hash64 len) s₁ = .next t₁ ∧ exec (.hash64 len) s₂ = .next t₂ ∧ t₁.result = t₂.result

/-- The two values of CHUNK_MODE give the same result unless the length is a multiple of 64 of at least 128
(spec/45_rolling_engine_64plus.md section 3; decision D22, log entry 2). -/
def Obligations.ChunkModesAgreeOffTheMultiples : Prop :=
  ∀ (s : State) (len : Nat), busyFlag s = false → len < 2 ^ s.params.lenW → Readable len s →
    (len % 64 ≠ 0 ∨ len < 128) →
    ∃ t₁ t₂,
      exec (.hash64 len) { s with params := { s.params with chunkMode := .floorLen } } = .next t₁ ∧
      exec (.hash64 len) { s with params := { s.params with chunkMode := .floorLenMinus1 } } = .next t₂ ∧
      t₁.result = t₂.result

/-! ### Frames and what can stop -/

/-- No operation writes memory or a parameter, and none changes what the host does next: every byte reads after it as
before (spec/20_memory.md R40, R41). All 23 operations. -/
def Obligations.NoOperationWritesMemory : Prop :=
  ∀ (i : Instr) (s t : State), exec i s = .next t →
    (∀ a, readByte a t.buf = readByte a s.buf) ∧ t.buf = s.buf ∧ t.params = s.params ∧ t.inputs = s.inputs

/-- Only H65P, its seed and chunk steps, and HASH64 on a length of the large engine write an accumulator, POS or REM
(spec/10_state.md R15, R18, table R27). -/
def Obligations.OnlyTheLargeEngineWritesAccumulators : Prop :=
  ∀ (i : Instr) (s t : State), exec i s = .next t →
    (∀ len, i ≠ .h65p len) → (∀ len, 65 ≤ len → i ≠ .hash64 len) → i ≠ .h65pSeed → i ≠ .h65pChunk →
    t.acc = s.acc ∧ t.pos = s.pos ∧ t.rem = s.rem

/-- Only an operation that ends a call writes RESULT, and it leaves DONE = 1; SEED, CHUNK and the primitives leave
RESULT as it is, and with FINAL they leave LEN as it is (spec/10_state.md R14, R16, table R27). -/
def Obligations.ResultIsWrittenOnlyAtTheEndOfACall : Prop :=
  ∀ (i : Instr) (s t : State), exec i s = .next t →
    (t.result ≠ s.result → doneFlag t = true) ∧
    (i.isCall = false → (∀ len, i ≠ .hash64 len) → (∀ len, i ≠ .small0to16 len) →
      t.len = s.len ∧ (i ≠ .h65pFinal → t.result = s.result))

/-- No operation takes a fault: H64 has no exception (spec/60_exceptions.md R110); and a step takes one only when the
host reads RESULT while DONE = 0 (decision D27). -/
def Obligations.OnlyReadingAnInvalidResultFaults : Prop :=
  (∀ (i : Instr) (s : State) (f : Fault), exec i s ≠ .fault f) ∧
  (∀ (s : State) (f : Fault), step s = .fault f →
    currentInput s = .readResult ∧ doneFlag s = false ∧ f = .unwrittenRead "RESULT")

/-- The model's own field `ok` is read by no operation and by no step, whatever the host does in it: two states that
differ in it alone have outcomes that differ in it alone (spec/10_state.md R22, R25; log entry 6). -/
def Obligations.TheDeliveredValueIsNeverRead : Prop :=
  (∀ (i : Instr) (s : State) (v : Option Value),
    (∀ t, exec i s = .next t → ∃ t', exec i { s with ok := v } = .next t' ∧ { t' with ok := none } = { t with ok := none }) ∧
    (∀ r, exec i s = .refused r → exec i { s with ok := v } = .refused r)) ∧
  (∀ (s : State) (v : Option Value),
    (∀ t, step s = .next t → ∃ t', step { s with ok := v } = .next t' ∧ { t' with ok := none } = { t with ok := none }) ∧
    (∀ r, step s = .refused r → step { s with ok := v } = .refused r) ∧
    (∀ f, step s = .fault f → step { s with ok := v } = .fault f))

/-- An operation that begins no call sees no byte at or beyond x[LEN]: with other bytes there, or none, its outcome is
the same but for those bytes (spec/20_memory.md R43, R51; spec/70_reset_and_hazards.md R124, R125). The chunk and finalize
steps and the eleven primitives. -/
def Obligations.BytesBeyondTheLengthAreNotSeen : Prop :=
  ∀ (i : Instr) (s : State) (m : Memory),
    i.isCall = false → (∀ len, i ≠ .hash64 len) → (∀ len, i ≠ .small0to16 len) → i ≠ .h65pSeed →
    (∀ a, a < s.len.toNat → readByte a m = readByte a s.buf) →
    (∀ t, exec i s = .next t → exec i { s with buf := m } = .next { t with buf := m }) ∧
    (∀ r, exec i s = .refused r → exec i { s with buf := m } = .refused r)

/-! ### The machine -/

/-- A START runs the operation its word decodes to (spec/46_dispatcher.md R106, R107): with the host's input taken, a
step is that operation; for a length of the large engine it is H65P's first step, the seed step on the latched length,
refused busy or outOfBounds as a call is (R43, R111); a word that is none is refused lenRange (R57). That the whole
buffer is checked at START is the model's choice (log entry 10), and that H65P is sequenced is log entry 15. -/
def Obligations.StepRunsTheDecodedOperation : Prop :=
  ∀ (s : State) (w : Nat), currentInput s = .start w →
    (∀ i, decode s.params w = .ok i → w ≤ 64 → step s = exec i (takeInput s)) ∧
    (∀ i, decode s.params w = .ok i → 65 ≤ w → busyFlag s = false → Readable w s →
      i = .h65p w ∧ step s = exec .h65pSeed { takeInput s with len := BitVec.ofNat 64 w }) ∧
    (∀ i, decode s.params w = .ok i → busyFlag s = true → step s = .refused .busy) ∧
    (∀ i, decode s.params w = .ok i → busyFlag s = false → ¬ Readable w s → step s = .refused .outOfBounds) ∧
    (decode s.params w = .error .lenRange → step s = .refused .lenRange)

/-- The placed word is the one the next step runs: `withFetchWord` presents it by START to a unit that can accept it;
of a length of the large engine with that many readable bytes the seed step runs (log entries 15 and 18). -/
def Obligations.PlacedWordIsRunNext : Prop :=
  ∀ (s : State) (nbits w : Nat) (i : Instr), decode s.params w = .ok i →
    busyFlag (takeInput (s.withFetchWord nbits w)) = false ∧ (takeInput (s.withFetchWord nbits w)).inputs = s.inputs ∧
    (w ≤ 64 → step (s.withFetchWord nbits w) = exec i (takeInput (s.withFetchWord nbits w))) ∧
    (65 ≤ w → Readable w s → i = .h65p w ∧
      step (s.withFetchWord nbits w) =
        exec .h65pSeed { takeInput (s.withFetchWord nbits w) with len := BitVec.ofNat 64 w })

/-- The phase table without a START (spec/46_dispatcher.md R106): in IDLE and DONE nothing happens, in SEEDED and LOOP a
chunk step, in LOOPED the finalize step. That the step of a unit left alone in IDLE or DONE answers a next state in which
nothing has changed is DEDUCED (R119; log entry 16). -/
def Obligations.QuietStepFollowsThePhase : Prop :=
  ∀ s : State, currentInput s = .quiet →
    (s.phase = .idle ∨ s.phase = .done → step s = .next (takeInput s)) ∧
    (s.phase = .seeded ∨ s.phase = .loop → step s = exec .h65pChunk (takeInput s)) ∧
    (s.phase = .looped → step s = exec .h65pFinal (takeInput s))

/-- Reset in any state, also during a call: PHASE = IDLE, BUSY = 0, DONE = 0, the buffer and the parameters untouched
(spec/70_reset_and_hazards.md R121, R122; the values of the other registers are log entry 7 and not stated here). -/
def Obligations.ResetAbandonsTheCall : Prop :=
  ∀ s : State, currentInput s = .reset →
    ∃ t, step s = .next t ∧ t.phase = .idle ∧ busyFlag t = false ∧ doneFlag t = false ∧ t.buf = s.buf ∧
      t.params = s.params ∧ t.inputs = s.inputs.tail

/-- The host's other actions (spec/60_exceptions.md R117, spec/70_reset_and_hazards.md R123, R129): it may change the
buffer when no call is in progress; BUSY and DONE may be read at any time and are the functions of PHASE of
spec/10_state.md R19; RESULT may be read while DONE = 1, and while DONE = 0 the read is the model's fault (D27, U10). The
field that receives what is read is log entry 6. -/
def Obligations.HostActions : Prop :=
  ∀ s : State,
    (∀ bs, currentInput s = .place bs → busyFlag s = false → step s = .next { takeInput s with buf := placeBytes bs }) ∧
    (∀ a b, currentInput s = .write a b → busyFlag s = false →
      step s = .next { takeInput s with buf := writeByte a b s.buf }) ∧
    (currentInput s = .readBusy → ∃ b, step s = .next { takeInput s with ok := some (.flag b) } ∧
      (b = true ↔ s.phase = .seeded ∨ s.phase = .loop ∨ s.phase = .looped)) ∧
    (currentInput s = .readDone → ∃ b, step s = .next { takeInput s with ok := some (.flag b) } ∧
      (b = true ↔ s.phase = .done)) ∧
    (currentInput s = .readResult → doneFlag s = true → step s = .next { takeInput s with ok := some (.u64 s.result) }) ∧
    (currentInput s = .readResult → doneFlag s = false → step s = .fault (.unwrittenRead "RESULT"))

/-- The buffer during a call (spec/20_memory.md R52, spec/70_reset_and_hazards.md R124): while BUSY = 1 the host is
refused whatever writes below x[LEN], also the value that is there, and so the placing of another buffer; at and beyond
x[LEN] it may write what it likes (log entry 9). -/
def Obligations.TheBufferDuringACall : Prop :=
  ∀ s : State, busyFlag s = true →
    (∀ a b, currentInput s = .write a b →
      (a < s.len.toNat → step s = .refused .bufferChanged) ∧
      (s.len.toNat ≤ a → step s = .next { takeInput s with buf := writeByte a b s.buf })) ∧
    (∀ bs, currentInput s = .place bs →
      (s.len ≠ 0 → step s = .refused .bufferChanged) ∧
      (s.len = 0 → step s = .next { takeInput s with buf := placeBytes bs }))

/-- The machine right after reset (spec/10_state.md R29, spec/70_reset_and_hazards.md R121): PHASE is IDLE, BUSY and
DONE are 0, and the invariant holds. The values of the registers R29 leaves unspecified are log entry 5 and not stated
here. -/
def Obligations.ResetMeetsTheInvariant : Prop :=
  State.reset.phase = .idle ∧ busyFlag State.reset = false ∧ doneFlag State.reset = false ∧ Inv State.reset

/-- Every step keeps the invariant, from every state that meets it and under every host input: the buffer stays in
canonical form, LEN, POS and REM fit LEN_W bits, and a call in progress has its length, its readable buffer, its
counters in multiples of 64 with a constant sum, and the PHASE that belongs to them (spec/10_state.md R14, R17, R18,
spec/45_rolling_engine_64plus.md R96). -/
def Obligations.EveryStepKeepsTheInvariant : Prop :=
  ∀ s t : State, Inv s → step s = .next t → Inv t

/-- Every operation keeps the invariant, in whatever order operations are run (as above). -/
def Obligations.EveryOperationKeepsTheInvariant : Prop :=
  ∀ (i : Instr) (s t : State), Inv s → exec i s = .next t → Inv t

/-- A call in progress that is left alone is never stuck: some next state always exists, and no step of it is refused
(spec/46_dispatcher.md R106, spec/60_exceptions.md R120). -/
def Obligations.ACallInProgressNeverSticks : Prop :=
  ∀ s : State, Inv s → busyFlag s = true → currentInput s = .quiet → ∃ t, step s = .next t

/-- A call in progress that is left alone ends after as many steps as it has chunks left, and one more
(spec/45_rolling_engine_64plus.md R96, spec/46_dispatcher.md R106, spec/60_exceptions.md R120). -/
def Obligations.ACallInProgressEnds : Prop :=
  ∀ s : State, Inv s → busyFlag s = true → s.inputs = [] →
    ∃ t, Host.Core.run Sys2Proof.core (s.rem.toNat / 64 + 1) s = .next t ∧ doneFlag t = true ∧ t.buf = s.buf

/-- The sequenced view is the function (spec/46_dispatcher.md R106, spec/10_state.md R17): from any state in which the
host presents one START and then does nothing, 1 step for a length up to 64 and NCHUNKS(len) + 2 steps for a longer one
end in the outcome of HASH64 taken as one operation, state for state and refusal for refusal. Which view exec takes and
which the step is log entry 15. -/
def Obligations.SequencedCallIsThePublicFunction : Prop :=
  ∀ (s : State) (len : Nat), s.inputs = [.start len] →
    Host.Core.run Sys2Proof.core (if len ≤ 64 then 1 else nchunks s.params.chunkMode len + 2) s =
      exec (.hash64 len) (takeInput s)

/-- The parameters are fixed (spec/10_state.md R26), and the buffer changes by the host's hand alone
(spec/20_memory.md R40): a step under any other input leaves every byte as it was. -/
def Obligations.StepKeepsParametersAndBuffer : Prop :=
  ∀ s t : State, step s = .next t →
    t.params = s.params ∧ t.inputs = s.inputs.tail ∧
    ((∀ bs, currentInput s ≠ .place bs) → (∀ a b, currentInput s ≠ .write a b) →
      t.buf = s.buf ∧ ∀ a, readByte a t.buf = readByte a s.buf)
end

