-- ==== Sys2Proof/Laws/Memory.lean ====
section
/-! SUPPORT. The buffer: its canonical form is kept by every operation, a read after a write gives the byte written, and
`extent` is the number of bytes readable from offset 0 without a gap. -/

namespace Sys2Proof.Machine

/-! ### The canonical form -/

theorem Memory.wfFrom_mono {j k : Nat} (h : j ≤ k) : ∀ {m : Memory}, Memory.wfFrom k m = true → Memory.wfFrom j m = true
  | [], _          => rfl
  | (a, _) :: m, w => by
    simp only [Memory.wfFrom, Bool.and_eq_true, decide_eq_true_eq] at w ⊢
    exact ⟨by omega, w.2⟩

theorem readByte_eq_none_of_lt {a : Nat} : ∀ {k : Nat} {m : Memory}, a < k → Memory.wfFrom k m = true → readByte a m = none
  | _, [], _, _          => rfl
  | k, (c, _) :: m, h, w => by
    simp only [Memory.wfFrom, Bool.and_eq_true, decide_eq_true_eq] at w
    have : ¬ c = a := by omega
    simp only [readByte, this, if_false]
    exact readByte_eq_none_of_lt (by omega) w.2

theorem wfFrom_writeByte {a : Nat} {b : Byte} :
    ∀ {k : Nat} {m : Memory}, k ≤ a → Memory.wfFrom k m = true → Memory.wfFrom k (writeByte a b m) = true
  | k, [], h, _          => by simp [writeByte, Memory.wfFrom, h]
  | k, (c, d) :: m, h, w => by
    simp only [Memory.wfFrom, Bool.and_eq_true, decide_eq_true_eq] at w
    simp only [writeByte]
    split
    · simp only [Memory.wfFrom, Bool.and_eq_true, decide_eq_true_eq]
      exact ⟨h, by omega, w.2⟩
    · split
      · simp only [Memory.wfFrom, Bool.and_eq_true, decide_eq_true_eq]
        subst_vars; exact ⟨h, w.2⟩
      · simp only [Memory.wfFrom, Bool.and_eq_true, decide_eq_true_eq]
        exact ⟨w.1, wfFrom_writeByte (by omega) w.2⟩

/-- Writing a byte keeps the canonical form. -/
theorem wf_writeByte {a : Nat} {b : Byte} {m : Memory} (w : Memory.wf m = true) : Memory.wf (writeByte a b m) = true :=
  wfFrom_writeByte (Nat.zero_le a) w

theorem wfFrom_cellsFrom : ∀ {k : Nat} {bs : List Byte}, Memory.wfFrom k (cellsFrom k bs) = true
  | _, []     => rfl
  | k, _ :: _ => by simp [cellsFrom, Memory.wfFrom, wfFrom_cellsFrom]

/-- A placed buffer is in canonical form. -/
theorem wf_placeBytes (bs : List Byte) : Memory.wf (placeBytes bs) = true := wfFrom_cellsFrom

/-! ### Reading what was written -/

theorem readByte_writeByte_same {a : Nat} {b : Byte} : ∀ {m : Memory}, readByte a (writeByte a b m) = some b
  | []          => by simp [writeByte, readByte]
  | (c, d) :: m => by
    simp only [writeByte]
    split
    · simp [readByte]
    · split
      · simp [readByte]
      · next h₁ h₂ =>
        have : ¬ c = a := fun e => h₂ e.symm
        simp only [readByte, this, if_false]
        exact readByte_writeByte_same

theorem readByte_writeByte_other {a c : Nat} {b : Byte} (h : c ≠ a) : ∀ {m : Memory}, readByte c (writeByte a b m) = readByte c m
  | []          => by simp [writeByte, readByte, h.symm]
  | (k, d) :: m => by
    simp only [writeByte]
    split
    · simp [readByte, h.symm]
    · split
      · next h₁ h₂ => subst h₂; simp [readByte, h.symm]
      · simp only [readByte, readByte_writeByte_other h]

theorem readByte_cellsFrom : ∀ {k : Nat} {bs : List Byte} {a : Nat}, readByte (k + a) (cellsFrom k bs) = bs[a]?
  | _, [], _          => by simp [cellsFrom, readByte]
  | k, _ :: bs, 0     => by simp [cellsFrom, readByte]
  | k, _ :: bs, a + 1 => by
    have : ¬ k = k + (a + 1) := by omega
    simp only [cellsFrom, readByte, this, if_false, List.getElem?_cons_succ]
    rw [show k + (a + 1) = (k + 1) + a by omega]
    exact readByte_cellsFrom

/-- A placed buffer holds the bytes, the first at offset 0. -/
theorem readByte_placeBytes (bs : List Byte) (a : Nat) : readByte a (placeBytes bs) = bs[a]? := by
  have h := readByte_cellsFrom (k := 0) (bs := bs) (a := a)
  rwa [Nat.zero_add] at h

/-! ### How far the buffer is readable -/

theorem le_extentFrom : ∀ {k : Nat} {m : Memory}, k ≤ extentFrom k m
  | _, []          => by simp [extentFrom]
  | k, (a, _) :: m => by
    simp only [extentFrom]
    split
    · exact Nat.le_trans (Nat.le_succ k) le_extentFrom
    · exact Nat.le_refl k

theorem readByte_of_lt_extentFrom {a : Nat} :
    ∀ {k : Nat} {m : Memory}, k ≤ a → a < extentFrom k m → ∃ b, readByte a m = some b
  | k, [], h, l          => by simp only [extentFrom] at l; omega
  | k, (c, d) :: m, h, l => by
    simp only [extentFrom] at l
    split at l
    · next e =>
      by_cases ha : c = a
      · exact ⟨d, by simp [readByte, ha]⟩
      · obtain ⟨b, hb⟩ := readByte_of_lt_extentFrom (k := k + 1) (m := m) (by omega) l
        exact ⟨b, by simp [readByte, ha, hb]⟩
    · omega

/-- Every offset below `extent` is readable. -/
theorem readByte_of_lt_extent {a : Nat} {m : Memory} (h : a < extent m) : ∃ b, readByte a m = some b :=
  readByte_of_lt_extentFrom (Nat.zero_le a) h

theorem readByte_extentFrom : ∀ {k : Nat} {m : Memory}, Memory.wfFrom k m = true → readByte (extentFrom k m) m = none
  | _, [], _          => rfl
  | k, (a, d) :: m, w => by
    simp only [Memory.wfFrom, Bool.and_eq_true, decide_eq_true_eq] at w
    simp only [extentFrom]
    split
    · next e =>
      subst e
      have : ¬ a = extentFrom (a + 1) m := by
        have := le_extentFrom (k := a + 1) (m := m)
        omega
      simp only [readByte, this, if_false]
      exact readByte_extentFrom w.2
    · next e =>
      have : ¬ a = k := e
      simp only [readByte, this, if_false]
      exact readByte_eq_none_of_lt (by omega) w.2

/-- In canonical form the offset `extent` itself is not readable. -/
theorem readByte_extent {m : Memory} (w : Memory.wf m = true) : readByte (extent m) m = none := readByte_extentFrom w

/-- The buffer is readable for `n` bytes exactly when each of the first `n` offsets is. -/
theorem le_extent_iff {m : Memory} (w : Memory.wf m = true) (n : Nat) :
    n ≤ extent m ↔ ∀ a < n, ∃ b, readByte a m = some b := by
  constructor
  · exact fun h a ha => readByte_of_lt_extent (by omega)
  · intro h
    by_contra hn
    obtain ⟨b, hb⟩ := h (extent m) (by omega)
    simp [readByte_extent w] at hb

theorem extentFrom_cellsFrom : ∀ {k : Nat} {bs : List Byte}, extentFrom k (cellsFrom k bs) = k + bs.length
  | _, []      => by simp [cellsFrom, extentFrom]
  | k, _ :: bs => by
    simp only [cellsFrom, extentFrom, if_true, List.length_cons]
    rw [extentFrom_cellsFrom]; omega

/-- A placed buffer is readable for as many bytes as were placed. -/
@[simp] theorem extent_placeBytes (bs : List Byte) : extent (placeBytes bs) = bs.length := by
  simp [extent, placeBytes, extentFrom_cellsFrom]

/-! ### Equal memories -/

/-- In canonical form a memory is its bytes. -/
theorem eq_of_readByte_eq : ∀ {k : Nat} {m₁ m₂ : Memory}, Memory.wfFrom k m₁ = true → Memory.wfFrom k m₂ = true →
    (∀ a, readByte a m₁ = readByte a m₂) → m₁ = m₂
  | _, [], [], _, _, _              => rfl
  | _, [], (a, _) :: _, _, _, h     => by simpa [readByte] using h a
  | _, (a, _) :: _, [], _, _, h     => by simpa [readByte] using h a
  | k, (a, b) :: m₁, (c, d) :: m₂, w₁, w₂, h => by
    simp only [Memory.wfFrom, Bool.and_eq_true, decide_eq_true_eq] at w₁ w₂
    have ha := h a
    have hc := h c
    simp only [readByte, if_true] at ha hc
    have e : a = c := by
      rcases Nat.lt_trichotomy a c with l | e | l
      · rw [if_neg (by omega), readByte_eq_none_of_lt (by omega) w₂.2] at ha; cases ha
      · exact e
      · rw [if_neg (by omega), readByte_eq_none_of_lt (by omega) w₁.2] at hc; cases hc
    subst e
    rw [if_pos rfl] at ha
    injection ha with ha
    subst ha
    have t : m₁ = m₂ := eq_of_readByte_eq w₁.2 w₂.2 fun x => by
      by_cases e : a = x
      · subst e
        rw [readByte_eq_none_of_lt (Nat.lt_succ_self a) w₁.2, readByte_eq_none_of_lt (Nat.lt_succ_self a) w₂.2]
      · have := h x
        simpa only [readByte, if_neg e] using this
    rw [t]

end Sys2Proof.Machine
end

