-- ==== Sys2Proof/Laws/Loads.lean ====
section
/-! SUPPORT. The loads: inside a readable buffer a load answers the number its bytes make, little-endian
(spec/20_memory.md R33), and it refuses nothing but `outOfBounds`. -/

namespace Sys2Proof.Machine

/-- The byte at an offset, 0 where there is none: the value of a load inside a readable buffer. -/
def byteAt (m : Memory) (a : Nat) : Byte := (readByte a m).getD 0

/-- The `n` bytes from `off` up. -/
def bytesAt (m : Memory) (off n : Nat) : List Byte := (List.range n).map fun i => byteAt m (off + i)

theorem bytesAt_succ (m : Memory) (off n : Nat) : bytesAt m off (n + 1) = byteAt m off :: bytesAt m (off + 1) n := by
  simp only [bytesAt, List.range_succ_eq_map, List.map_cons, List.map_map, Nat.add_zero, List.cons.injEq, true_and]
  congr 1
  funext i
  simp only [Function.comp_apply]
  congr 1
  omega

theorem readByte_eq_byteAt {m : Memory} {a : Nat} (h : a < extent m) : readByte a m = some (byteAt m a) := by
  obtain ⟨b, hb⟩ := readByte_of_lt_extent h
  simp [byteAt, hb]

theorem readBytes_eq {m : Memory} : ∀ {n off : Nat}, off + n ≤ extent m → readBytes m off n = some (bytesAt m off n)
  | 0, _, _       => by simp [readBytes, bytesAt]
  | n + 1, off, h => by
    simp only [readBytes]
    rw [readByte_eq_byteAt (by omega), readBytes_eq (n := n) (off := off + 1) (by omega), bytesAt_succ]

/-- A load of a number inside the length and the readable buffer. -/
theorem loadNat_eq {s : State} {off n : Nat} (hl : off + n ≤ s.len.toNat) (hr : s.len.toNat ≤ extent s.buf) :
    loadNat s off n = .ok (leNat (bytesAt s.buf off n)) := by
  simp only [loadNat, memRead, hl, if_true]
  rw [readBytes_eq (by omega)]

/-- If the bytes are there, then they are the bytes from `off` up. -/
theorem readBytes_some {m : Memory} : ∀ {n off : Nat} {bs : List Byte}, readBytes m off n = some bs → bs = bytesAt m off n
  | 0, _, bs, h       => by simpa [readBytes, bytesAt] using h.symm
  | n + 1, off, bs, h => by
    simp only [readBytes] at h
    split at h
    · next b cs hb hc =>
      injection h with h
      rw [← h, readBytes_some hc, bytesAt_succ, byteAt, hb]
      rfl
    · cases h

/-- If a load answers, then it lies inside x[LEN] and the number is that of its bytes. -/
theorem loadNat_ok {s : State} {off n v : Nat} (h : loadNat s off n = .ok v) :
    off + n ≤ s.len.toNat ∧ v = leNat (bytesAt s.buf off n) := by
  simp only [loadNat, memRead] at h
  by_cases hl : off + n ≤ s.len.toNat
  · rw [if_pos hl] at h
    cases hb : readBytes s.buf off n with
    | none    => rw [hb] at h; cases h
    | some bs =>
      rw [hb] at h
      injection h with h
      exact ⟨hl, by rw [← h, readBytes_some hb]⟩
  · rw [if_neg hl] at h; cases h

/-- The bytes read depend on the offsets read alone. -/
theorem readBytes_congr {m₁ m₂ : Memory} {len : Nat} (h : ∀ a < len, readByte a m₁ = readByte a m₂) :
    ∀ {n off : Nat}, off + n ≤ len → readBytes m₁ off n = readBytes m₂ off n
  | 0, _, _        => rfl
  | n + 1, off, hl => by
    simp only [readBytes]
    rw [h off (by omega), readBytes_congr h (n := n) (off := off + 1) (by omega)]

/-- A load sees no byte at or beyond x[LEN] (R43). -/
theorem loadNat_congr {s : State} {m : Memory} (h : ∀ a < s.len.toNat, readByte a m = readByte a s.buf) (off n : Nat) :
    loadNat { s with buf := m } off n = loadNat s off n := by
  simp only [loadNat, memRead]
  by_cases hl : off + n ≤ s.len.toNat
  · rw [if_pos hl, if_pos hl, readBytes_congr h hl]
  · rw [if_neg hl, if_neg hl]

/-- A load at or beyond x[LEN] is refused (R43). -/
theorem loadNat_outside {s : State} {off n : Nat} (hl : s.len.toNat < off + n) : loadNat s off n = .error .outOfBounds := by
  have : ¬ off + n ≤ s.len.toNat := by omega
  simp [loadNat, memRead, this]

/-- A load refuses for one reason only. -/
theorem loadNat_error {s : State} {off n : Nat} {r : Refusal} (h : loadNat s off n = .error r) : r = .outOfBounds := by
  simp only [loadNat, memRead] at h
  split at h <;> simp_all
  split at * <;> (try split at *) <;> simp_all

/-- The 8-byte little-endian word at an offset. -/
def wordAt (m : Memory) (off : Nat) : Word := BitVec.ofNat 64 (leNat (bytesAt m off 8))

/-- The 4-byte little-endian word at an offset. -/
def halfAt (m : Memory) (off : Nat) : Half := BitVec.ofNat 32 (leNat (bytesAt m off 4))

theorem fetch64_eq {s : State} {off : Nat} (hl : off + 8 ≤ s.len.toNat) (hr : s.len.toNat ≤ extent s.buf) :
    fetch64 s off = .ok (wordAt s.buf off) := by
  simp [fetch64, loadNat_eq hl hr, wordAt]

theorem fetch32_eq {s : State} {off : Nat} (hl : off + 4 ≤ s.len.toNat) (hr : s.len.toNat ≤ extent s.buf) :
    fetch32 s off = .ok (halfAt s.buf off) := by
  simp [fetch32, loadNat_eq hl hr, halfAt]

theorem fetch8_eq {s : State} {off : Nat} (hl : off + 1 ≤ s.len.toNat) (hr : s.len.toNat ≤ extent s.buf) :
    fetch8 s off = .ok (byteAt s.buf off) := by
  simp [fetch8, loadNat_eq hl hr, bytesAt, leNat]

theorem loadBytes_eq {s : State} {off n : Nat} (hn : n < 9) (hl : off + n ≤ s.len.toNat)
    (hr : s.len.toNat ≤ extent s.buf) :
    loadBytes s off n = .ok (BitVec.ofNat 64 (leNat (bytesAt s.buf off n))) := by
  by_cases h0 : n = 0
  · subst h0; rfl
  · simp [loadBytes, h0, hn, loadNat_eq hl hr]

/-- LOADBYTES of no byte is 0 at every offset (R66). -/
@[simp] theorem loadBytes_zero (s : State) (off : Nat) : loadBytes s off 0 = .ok 0 := rfl

/-- The weak hash of a window inside the buffer (R78). -/
theorem weakHash32M_eq {s : State} {off : Nat} {a b : Word} (hl : off + 32 ≤ s.len.toNat)
    (hr : s.len.toNat ≤ extent s.buf) :
    weakHash32M s off a b =
      .ok (weakHash32 (wordAt s.buf off) (wordAt s.buf (off + 8)) (wordAt s.buf (off + 16)) (wordAt s.buf (off + 24)) a b) := by
  simp only [weakHash32M]
  rw [fetch64_eq (by omega) hr, fetch64_eq (by omega) hr, fetch64_eq (by omega) hr, fetch64_eq (by omega) hr]
  rfl

/-! ### The little-endian number is the sum of R33 -/

theorem leNat_bytesAt (m : Memory) : ∀ (n off : Nat),
    leNat (bytesAt m off n) = ∑ i ∈ Finset.range n, (byteAt m (off + i)).toNat * 2 ^ (8 * i)
  | 0, _       => by simp [bytesAt, leNat]
  | n + 1, off => by
    rw [bytesAt_succ, leNat, leNat_bytesAt m n (off + 1), Finset.sum_range_succ', Finset.mul_sum]
    simp only [Nat.add_zero, Nat.mul_zero, Nat.pow_zero, Nat.mul_one]
    rw [Nat.add_comm]
    congr 1
    refine Finset.sum_congr rfl fun i _ => ?_
    rw [show off + 1 + i = off + (i + 1) by omega, show 8 * (i + 1) = 8 * i + 8 by omega, Nat.pow_add]
    ring

theorem leNat_lt (bs : List Byte) : leNat bs < 256 ^ bs.length := by
  induction bs with
  | nil => simp [leNat]
  | cons b bs ih =>
    have := b.isLt
    simp only [leNat, List.length_cons, Nat.pow_succ]
    omega

end Sys2Proof.Machine
end

