-- ==== Sys2Proof/Laws/State.lean ====
section
/-! SUPPORT. What each named update of the state does to each field: one lemma per field per update, true by
unfolding, so that no later proof unfolds a record update. -/

namespace Sys2Proof.Machine

/-! ### endCall -/

@[simp] theorem endCall_buf (v : Word) (s : State) : (endCall v s).buf = s.buf := rfl
@[simp] theorem endCall_len (v : Word) (s : State) : (endCall v s).len = s.len := rfl
@[simp] theorem endCall_acc (v : Word) (s : State) : (endCall v s).acc = s.acc := rfl
@[simp] theorem endCall_pos (v : Word) (s : State) : (endCall v s).pos = s.pos := rfl
@[simp] theorem endCall_rem (v : Word) (s : State) : (endCall v s).rem = s.rem := rfl
@[simp] theorem endCall_result (v : Word) (s : State) : (endCall v s).result = v := rfl
@[simp] theorem endCall_phase (v : Word) (s : State) : (endCall v s).phase = .done := rfl
@[simp] theorem endCall_params (v : Word) (s : State) : (endCall v s).params = s.params := rfl
@[simp] theorem endCall_inputs (v : Word) (s : State) : (endCall v s).inputs = s.inputs := rfl
@[simp] theorem endCall_ok (v : Word) (s : State) : (endCall v s).ok = s.ok := rfl

/-! ### deliver -/

@[simp] theorem deliver_buf (v : Value) (s : State) : (deliver v s).buf = s.buf := rfl
@[simp] theorem deliver_len (v : Value) (s : State) : (deliver v s).len = s.len := rfl
@[simp] theorem deliver_acc (v : Value) (s : State) : (deliver v s).acc = s.acc := rfl
@[simp] theorem deliver_pos (v : Value) (s : State) : (deliver v s).pos = s.pos := rfl
@[simp] theorem deliver_rem (v : Value) (s : State) : (deliver v s).rem = s.rem := rfl
@[simp] theorem deliver_result (v : Value) (s : State) : (deliver v s).result = s.result := rfl
@[simp] theorem deliver_phase (v : Value) (s : State) : (deliver v s).phase = s.phase := rfl
@[simp] theorem deliver_params (v : Value) (s : State) : (deliver v s).params = s.params := rfl
@[simp] theorem deliver_inputs (v : Value) (s : State) : (deliver v s).inputs = s.inputs := rfl
@[simp] theorem deliver_ok (v : Value) (s : State) : (deliver v s).ok = some v := rfl

/-! ### takeInput -/

@[simp] theorem takeInput_buf (s : State) : (takeInput s).buf = s.buf := rfl
@[simp] theorem takeInput_len (s : State) : (takeInput s).len = s.len := rfl
@[simp] theorem takeInput_acc (s : State) : (takeInput s).acc = s.acc := rfl
@[simp] theorem takeInput_pos (s : State) : (takeInput s).pos = s.pos := rfl
@[simp] theorem takeInput_rem (s : State) : (takeInput s).rem = s.rem := rfl
@[simp] theorem takeInput_result (s : State) : (takeInput s).result = s.result := rfl
@[simp] theorem takeInput_phase (s : State) : (takeInput s).phase = s.phase := rfl
@[simp] theorem takeInput_params (s : State) : (takeInput s).params = s.params := rfl
@[simp] theorem takeInput_inputs (s : State) : (takeInput s).inputs = s.inputs.tail := rfl
@[simp] theorem takeInput_ok (s : State) : (takeInput s).ok = s.ok := rfl

/-! ### resetUnit -/

@[simp] theorem resetUnit_buf (s : State) : (resetUnit s).buf = s.buf := rfl
@[simp] theorem resetUnit_len (s : State) : (resetUnit s).len = 0 := rfl
@[simp] theorem resetUnit_acc (s : State) : (resetUnit s).acc = ⟨0, 0, 0, 0, 0, 0, 0⟩ := rfl
@[simp] theorem resetUnit_pos (s : State) : (resetUnit s).pos = 0 := rfl
@[simp] theorem resetUnit_rem (s : State) : (resetUnit s).rem = 0 := rfl
@[simp] theorem resetUnit_result (s : State) : (resetUnit s).result = 0 := rfl
@[simp] theorem resetUnit_phase (s : State) : (resetUnit s).phase = .idle := rfl
@[simp] theorem resetUnit_params (s : State) : (resetUnit s).params = s.params := rfl
@[simp] theorem resetUnit_inputs (s : State) : (resetUnit s).inputs = s.inputs := rfl
@[simp] theorem resetUnit_ok (s : State) : (resetUnit s).ok = s.ok := rfl

/-! ### presentWord -/

@[simp] theorem presentWord_buf (s : State) (w : Nat) : (presentWord s w).buf = s.buf := rfl
@[simp] theorem presentWord_len (s : State) (w : Nat) : (presentWord s w).len = s.len := rfl
@[simp] theorem presentWord_acc (s : State) (w : Nat) : (presentWord s w).acc = s.acc := rfl
@[simp] theorem presentWord_pos (s : State) (w : Nat) : (presentWord s w).pos = s.pos := rfl
@[simp] theorem presentWord_rem (s : State) (w : Nat) : (presentWord s w).rem = s.rem := rfl
@[simp] theorem presentWord_result (s : State) (w : Nat) : (presentWord s w).result = s.result := rfl
@[simp] theorem presentWord_phase (s : State) (w : Nat) : (presentWord s w).phase = if busyFlag s then .idle else s.phase := rfl
@[simp] theorem presentWord_params (s : State) (w : Nat) : (presentWord s w).params = s.params := rfl
@[simp] theorem presentWord_inputs (s : State) (w : Nat) : (presentWord s w).inputs = .start w :: s.inputs := rfl
@[simp] theorem presentWord_ok (s : State) (w : Nat) : (presentWord s w).ok = s.ok := rfl

/-! ### BUSY and DONE (spec/10_state.md R19) -/

@[simp] theorem busyFlag_deliver (v : Value) (s : State) : busyFlag (deliver v s) = busyFlag s := rfl
@[simp] theorem busyFlag_takeInput (s : State) : busyFlag (takeInput s) = busyFlag s := rfl
@[simp] theorem busyFlag_endCall (v : Word) (s : State) : busyFlag (endCall v s) = false := rfl
@[simp] theorem doneFlag_endCall (v : Word) (s : State) : doneFlag (endCall v s) = true := rfl
@[simp] theorem busyFlag_resetUnit (s : State) : busyFlag (resetUnit s) = false := rfl
@[simp] theorem doneFlag_resetUnit (s : State) : doneFlag (resetUnit s) = false := rfl

/-- The flags depend on PHASE alone. -/
theorem busyFlag_congr {s t : State} (h : s.phase = t.phase) : busyFlag s = busyFlag t := by
  simp [busyFlag, h]

theorem busyFlag_eq_true_iff (s : State) :
    busyFlag s = true ↔ s.phase = .seeded ∨ s.phase = .loop ∨ s.phase = .looped := by
  cases h : s.phase <;> simp [busyFlag, h]

theorem doneFlag_eq_true_iff (s : State) : doneFlag s = true ↔ s.phase = .done := by
  cases h : s.phase <;> simp [doneFlag, h]

end Sys2Proof.Machine
end

