-- ==== Sys2Proof/Laws/Calls.lean ====
section
/-! SUPPORT. What the shared operations of a call can do: the beginning of a call, the one-step call, and the three
steps of the large engine, each said once. -/

namespace Sys2Proof.Machine

/-! ### The beginning of a call -/

theorem checkCall_ok {lo hi len : Nat} {s : State} (hb : busyFlag s = false) (hl : lo ≤ len) (hh : len ≤ hi)
    (hr : len ≤ extent s.buf) : checkCall lo hi len s = .ok () := by
  have h1 : ¬ (len < lo ∨ hi < len) := by omega
  have h2 : ¬ extent s.buf < len := by omega
  simp [checkCall, hb, h1, h2]

/-- If a call passes its checks, then all its preconditions hold. -/
theorem checkCall_cases {lo hi len : Nat} {s : State} (h : checkCall lo hi len s = .ok ()) :
    busyFlag s = false ∧ lo ≤ len ∧ len ≤ hi ∧ len ≤ extent s.buf := by
  simp only [checkCall] at h
  split at h
  · cases h
  · next hb =>
    split at h
    · cases h
    · next hl =>
      split at h
      · cases h
      · next hr => exact ⟨by simpa using hb, by omega, by omega, by omega⟩

theorem beginCall_ok {lo hi len : Nat} {s : State} (hf : len < 2 ^ s.params.lenW) (hb : busyFlag s = false)
    (hl : lo ≤ len) (hh : len ≤ hi) (hr : len ≤ extent s.buf) :
    beginCall lo hi len s = .ok { s with len := BitVec.ofNat 64 len } := by
  have h1 : ¬ 2 ^ s.params.lenW ≤ len := by omega
  simp [beginCall, h1, checkCall_ok hb hl hh hr]

/-- If a call begins, then its preconditions hold and only LEN is written. -/
theorem beginCall_cases {lo hi len : Nat} {s t : State} (h : beginCall lo hi len s = .ok t) :
    len < 2 ^ s.params.lenW ∧ busyFlag s = false ∧ lo ≤ len ∧ len ≤ hi ∧ len ≤ extent s.buf ∧
      t = { s with len := BitVec.ofNat 64 len } := by
  simp only [beginCall] at h
  split at h
  · cases h
  · next hf =>
    split at h
    · cases h
    · next hc =>
      obtain ⟨hb, hl, hh, hr⟩ := checkCall_cases hc
      exact ⟨by omega, hb, hl, hh, hr, by injection h with h; exact h.symm⟩

/-! ### LEN_W -/

theorem lenW_le (p : Params) : p.lenW ≤ 64 := by have := p.lenWX.isLt; unfold Params.lenW; omega

theorem le_lenW (p : Params) : 7 ≤ p.lenW := by unfold Params.lenW; omega

/-- A length that fits LEN_W bits is not changed by the 64-bit register (R14). -/
theorem toNat_ofNat_len {p : Params} {len : Nat} (h : len < 2 ^ p.lenW) : (BitVec.ofNat 64 len).toNat = len := by
  have : 2 ^ p.lenW ≤ 2 ^ 64 := Nat.pow_le_pow_right (by omega) (lenW_le p)
  simp only [BitVec.toNat_ofNat]
  exact Nat.mod_eq_of_lt (by omega)

/-- Every length up to 127 fits (D1). -/
theorem lt_two_pow_lenW {p : Params} {len : Nat} (h : len < 128) : len < 2 ^ p.lenW := by
  have : 2 ^ 7 ≤ 2 ^ p.lenW := Nat.pow_le_pow_right (by omega) (le_lenW p)
  omega

/-! ### A call of one step -/

/-- If a one-step call answers next t, then it began, its band has a value, and t is the end of the call. -/
theorem oneStepCall_next {lo hi len : Nat} {value : State → Except Refusal Word} {s t : State}
    (h : oneStepCall lo hi value len s = .next t) :
    ∃ s1 v, beginCall lo hi len s = .ok s1 ∧ value s1 = .ok v ∧ t = endCall v s1 := by
  simp only [oneStepCall] at h
  split at h
  · cases h
  · next s1 h1 =>
    split at h
    · cases h
    · next v hv => exact ⟨s1, v, h1, hv, by injection h with h; exact h.symm⟩

theorem oneStepCall_eq {lo hi len : Nat} {value : State → Except Refusal Word} {s : State} {v : Word}
    (hf : len < 2 ^ s.params.lenW) (hb : busyFlag s = false) (hl : lo ≤ len) (hh : len ≤ hi) (hr : len ≤ extent s.buf)
    (hv : value { s with len := BitVec.ofNat 64 len } = .ok v) :
    oneStepCall lo hi value len s =
      .next { s with len := BitVec.ofNat 64 len, result := v, phase := .done } := by
  simp [oneStepCall, beginCall_ok hf hb hl hh hr, hv, endCall]

theorem oneStepCall_refused {lo hi len : Nat} {value : State → Except Refusal Word} {s : State} {r : Refusal}
    (h : beginCall lo hi len s = .error r) : oneStepCall lo hi value len s = .refused r := by
  simp [oneStepCall, h]

/-- A one-step call takes no fault (R110). -/
theorem oneStepCall_no_fault {lo hi len : Nat} {value : State → Except Refusal Word} {s : State} {f : Fault} :
    oneStepCall lo hi value len s ≠ .fault f := by
  simp only [oneStepCall]
  split
  · simp
  · split <;> simp

theorem toOutcome_no_fault {e : Except Refusal State} {f : Fault} : toOutcome e ≠ .fault f := by
  cases e <;> simp [toOutcome]

theorem toOutcome_next {e : Except Refusal State} {t : State} : toOutcome e = .next t ↔ e = .ok t := by
  cases e <;> simp [toOutcome]

theorem answer_no_fault {v : Except Refusal Value} {s : State} {f : Fault} : answer v s ≠ .fault f := by
  cases v <;> simp [answer]

/-- If a primitive answers next t, then it has a value, and t is s with that value delivered. -/
theorem answer_next {v : Except Refusal Value} {s t : State} (h : answer v s = .next t) :
    ∃ x, v = .ok x ∧ t = deliver x s := by
  cases v with
  | ok x => exact ⟨x, rfl, by simpa [answer] using h.symm⟩
  | error r => simp [answer] at h

/-! ### `Except` -/

theorem except_bind_ok {ε α β : Type} {e : Except ε α} {f : α → Except ε β} {b : β} :
    (e >>= f) = .ok b ↔ ∃ a, e = .ok a ∧ f a = .ok b := by
  cases e <;> simp [bind, Except.bind]

@[simp] theorem ok_bind {ε α β : Type} (a : α) (f : α → Except ε β) : ((Except.ok a : Except ε α) >>= f) = f a := rfl

@[simp] theorem error_bind {ε α β : Type} (r : ε) (f : α → Except ε β) :
    ((Except.error r : Except ε α) >>= f) = .error r := rfl

/-! ### The steps of the large engine -/

/-- If the seed step answers t, then the call's preconditions hold and t has the accumulators and counters of R94. -/
theorem seedState_cases {s t : State} (h : seedState s = .ok t) :
    busyFlag s = false ∧ 65 ≤ s.len.toNat ∧ s.len.toNat ≤ extent s.buf ∧
      ∃ a, seedAcc s = .ok a ∧
        t = { s with
          acc := a, pos := 0, rem := BitVec.ofNat 64 (64 * nchunks s.params.chunkMode s.len.toNat), phase := .seeded } := by
  simp only [seedState, except_bind_ok] at h
  obtain ⟨⟨⟩, hc, a, ha, ht⟩ := h
  obtain ⟨hb, hl, -, hr⟩ := checkCall_cases hc
  exact ⟨hb, hl, hr, a, ha, by injection ht with ht; exact ht.symm⟩

/-- The chunk step is enabled in SEEDED and LOOP with a chunk left (R96). -/
theorem chunkEnabled_iff (s : State) :
    chunkEnabled s = true ↔ (s.phase = .seeded ∨ s.phase = .loop) ∧ 64 ≤ s.rem.toNat := by
  cases h : s.phase <;> simp [chunkEnabled, h]

/-- If the chunk step answers t, then it was enabled and t has the accumulators of R97 and the counters of R96. -/
theorem chunkState_cases {s t : State} (h : chunkState s = .ok t) :
    (s.phase = .seeded ∨ s.phase = .loop) ∧ 64 ≤ s.rem.toNat ∧
      ∃ a, chunkAcc s s.pos.toNat s.acc = .ok a ∧
        t = { s with
          acc := a, pos := BitVec.ofNat 64 (s.pos.toNat + 64), rem := BitVec.ofNat 64 (s.rem.toNat - 64),
          phase := if s.rem.toNat - 64 = 0 then .looped else .loop } := by
  simp only [chunkState] at h
  split at h
  · next he =>
    obtain ⟨hp, hm⟩ := (chunkEnabled_iff s).mp he
    rw [except_bind_ok] at h
    obtain ⟨a, ha, ht⟩ := h
    exact ⟨hp, hm, a, ha, by injection ht with ht; exact ht.symm⟩
  · cases h

/-- If the finalize step answers t, then PHASE was LOOPED and t is the end of the call with the value of R99. -/
theorem finalState_cases {s t : State} (h : finalState s = .ok t) :
    s.phase = .looped ∧ t = endCall (finalMix s.acc) s := by
  cases hp : s.phase <;> simp [finalState, hp] at h
  exact ⟨rfl, h.symm⟩

theorem nchunks_bounds {mode : ChunkMode} {len : Nat} (h : 65 ≤ len) :
    1 ≤ nchunks mode len ∧ 64 * nchunks mode len ≤ len := by
  cases mode <;> simp only [nchunks] <;> omega

end Sys2Proof.Machine
end

