-- ==== Sys2Proof/Laws/Exec.lean ====
section
/-! SUPPORT. The dispatch unfolded, one lemma per row of spec/opcode_table.json, and what the parts of a call leave
unchanged, said once: these are what a proof about `exec` or a run cites instead of unfolding them. -/

namespace Sys2Proof.Machine

/-! ### The dispatch -/

theorem exec_h0 (len : Nat) (s : State) : exec (.h0 len) s = execH0 len s := rfl
theorem exec_h1_3 (len : Nat) (s : State) : exec (.h1_3 len) s = execH1_3 len s := rfl
theorem exec_h4_7 (len : Nat) (s : State) : exec (.h4_7 len) s = execH4_7 len s := rfl
theorem exec_h8_16 (len : Nat) (s : State) : exec (.h8_16 len) s = execH8_16 len s := rfl
theorem exec_h17_32 (len : Nat) (s : State) : exec (.h17_32 len) s = execH17_32 len s := rfl
theorem exec_h33_64 (len : Nat) (s : State) : exec (.h33_64 len) s = execH33_64 len s := rfl
theorem exec_h65p (len : Nat) (s : State) : exec (.h65p len) s = execH65p len s := rfl
theorem exec_hash64 (len : Nat) (s : State) : exec (.hash64 len) s = execHash64 len s := rfl
theorem exec_small0to16 (len : Nat) (s : State) : exec (.small0to16 len) s = execSmall0to16 len s := rfl
theorem exec_h65pSeed (s : State) : exec .h65pSeed s = execH65pSeed s := rfl
theorem exec_h65pChunk (s : State) : exec .h65pChunk s = execH65pChunk s := rfl
theorem exec_h65pFinal (s : State) : exec .h65pFinal s = execH65pFinal s := rfl
theorem exec_fetch64 (off : Nat) (s : State) : exec (.fetch64 off) s = execFetch64 off s := rfl
theorem exec_fetch32 (off : Nat) (s : State) : exec (.fetch32 off) s = execFetch32 off s := rfl
theorem exec_fetch8 (off : Nat) (s : State) : exec (.fetch8 off) s = execFetch8 off s := rfl
theorem exec_loadBytes (off n : Nat) (s : State) : exec (.loadBytes off n) s = execLoadBytes off n s := rfl
theorem exec_rotr (v : Word) (k : Nat) (s : State) : exec (.rotr v k) s = execRotr v k s := rfl
theorem exec_shiftMix (v : Word) (s : State) : exec (.shiftMix v) s = execShiftMix v s := rfl
theorem exec_hashLen16M (u v m : Word) (s : State) : exec (.hashLen16M u v m) s = execHashLen16M u v m s := rfl
theorem exec_hashLen16 (u v : Word) (s : State) : exec (.hashLen16 u v) s = execHashLen16 u v s := rfl
theorem exec_weakHash32 (w x y z a b : Word) (s : State) :
    exec (.weakHash32 w x y z a b) s = execWeakHash32 w x y z a b s := rfl
theorem exec_weakHash32M (off : Nat) (a b : Word) (s : State) :
    exec (.weakHash32M off a b) s = execWeakHash32M off a b s := rfl
theorem exec_bswap64 (v : Word) (s : State) : exec (.bswap64 v) s = execBswap64 v s := rfl

/-! ### What the parts of a call leave unchanged -/

/-- If a call begins, only LEN is written (R107). -/
theorem beginCall_frame {lo hi len : Nat} {s t : State} (h : beginCall lo hi len s = .ok t) :
    t = { s with len := t.len } := by
  obtain ⟨-, -, -, -, -, rfl⟩ := beginCall_cases h; rfl

/-- If a call of one step answers next t, then LEN, RESULT and PHASE are written, and nothing else. -/
theorem oneStepCall_frame {lo hi len : Nat} {value : State → Except Refusal Word} {s t : State}
    (h : oneStepCall lo hi value len s = .next t) : ∃ v, t = { s with len := t.len, result := v, phase := .done } := by
  obtain ⟨s1, v, h1, -, rfl⟩ := oneStepCall_next h
  exact ⟨v, by rw [beginCall_frame h1]; rfl⟩

theorem execSmall0to16_frame {len : Nat} {s t : State} (h : execSmall0to16 len s = .next t) :
    ∃ v, t = { s with len := t.len, result := v, phase := .done } := by
  simp only [execSmall0to16] at h
  split at h
  · cases h
  · split at h
    · exact oneStepCall_frame h
    · split at h
      · exact oneStepCall_frame h
      · split at h
        · exact oneStepCall_frame h
        · exact oneStepCall_frame h

/-- If the seed step answers t, then it wrote the accumulators, POS, REM and PHASE, and nothing else. -/
theorem seedState_frame {s t : State} (h : seedState s = .ok t) :
    t = { s with acc := t.acc, pos := t.pos, rem := t.rem, phase := t.phase } := by
  obtain ⟨-, -, -, a, -, rfl⟩ := seedState_cases h; rfl

/-- If the chunk step answers t, then it wrote the accumulators, POS, REM and PHASE, and nothing else. -/
theorem chunkState_frame {s t : State} (h : chunkState s = .ok t) :
    t = { s with acc := t.acc, pos := t.pos, rem := t.rem, phase := t.phase } := by
  obtain ⟨-, -, a, -, rfl⟩ := chunkState_cases h; rfl

/-- If the finalize step answers t, then it wrote RESULT and PHASE, and nothing else. -/
theorem finalState_frame {s t : State} (h : finalState s = .ok t) : t = { s with result := t.result, phase := .done } := by
  obtain ⟨-, rfl⟩ := finalState_cases h; rfl

/-- A relation that is reflexive, transitive and holds across every chunk step holds across the chunk loop. -/
theorem chunkLoop_induction {P : State → State → Prop} (refl : ∀ s, P s s) (trans : ∀ s t u, P s t → P t u → P s u)
    (step : ∀ s t, chunkState s = .ok t → P s t) : ∀ n s t, chunkLoop n s = .ok t → P s t
  | 0, s, t, h     => by simp only [chunkLoop] at h; injection h with h; subst h; exact refl s
  | n + 1, s, t, h => by
    simp only [chunkLoop] at h
    split at h
    · cases h
    · next u hu => exact trans s u t (step s u hu) (chunkLoop_induction refl trans step n u t h)

theorem chunkLoop_frame {n : Nat} {s t : State} (h : chunkLoop n s = .ok t) :
    t = { s with acc := t.acc, pos := t.pos, rem := t.rem, phase := t.phase } :=
  chunkLoop_induction (P := fun s t => t = { s with acc := t.acc, pos := t.pos, rem := t.rem, phase := t.phase })
    (fun _ => rfl) (fun _ _ _ h₁ h₂ => by rw [h₂, h₁]) (fun _ _ => chunkState_frame) n s t h

/-- If H65P answers next t, then its parts ran one after the other (R100). -/
theorem execH65p_cases {len : Nat} {s t : State} (h : execH65p len s = .next t) :
    ∃ s0 s1 s2, beginCall 65 (maxLen s) len s = .ok s0 ∧ seedState s0 = .ok s1 ∧
      chunkLoop (nchunks s.params.chunkMode len) s1 = .ok s2 ∧ finalState s2 = .ok t := by
  simp only [execH65p, toOutcome_next, except_bind_ok, startSeed] at h
  obtain ⟨s1, ⟨s0, h0, h1⟩, s2, h2, h3⟩ := h
  exact ⟨s0, s1, s2, h0, h1, h2, h3⟩

/-! ### The host's change of the buffer -/

/-- If the host's action answers next t, then the buffer alone changed, and during a call at or beyond x[LEN] (R52). -/
theorem changeBuffer_next {lowest : Nat} {m : Memory} {s t : State} (h : changeBuffer lowest m s = .next t) :
    (busyFlag s = true → s.len.toNat ≤ lowest) ∧ t = { s with buf := m } := by
  simp only [changeBuffer] at h
  split at h
  · cases h
  · next hc => exact ⟨fun hb => by simpa [hb] using hc, by injection h with h; exact h.symm⟩

theorem changeBuffer_idle {lowest : Nat} {m : Memory} {s : State} (h : busyFlag s = false) :
    changeBuffer lowest m s = .next { s with buf := m } := by simp [changeBuffer, h]

theorem changeBuffer_beyond {lowest : Nat} {m : Memory} {s : State} (h : s.len.toNat ≤ lowest) :
    changeBuffer lowest m s = .next { s with buf := m } := by simp [changeBuffer, h]

theorem changeBuffer_refused {lowest : Nat} {m : Memory} {s : State} (hb : busyFlag s = true)
    (h : lowest < s.len.toNat) : changeBuffer lowest m s = .refused .bufferChanged := by
  simp [changeBuffer, hb, h]

/-! ### The step and a run -/

theorem step_eq (s : State) : step s = inputStep (currentInput s) (takeInput s) := rfl

theorem run_succ_of_next {k : Nat} {s t : State} (h : step s = .next t) :
    Host.Core.run Sys2Proof.core (k + 1) s = Host.Core.run Sys2Proof.core k t := by
  simp only [Host.Core.run]
  rw [show Sys2Proof.core.step s = .next t from h]

theorem run_succ_of_refused {k : Nat} {s : State} {r : Refusal} (h : step s = .refused r) :
    Host.Core.run Sys2Proof.core (k + 1) s = .refused r := by
  simp only [Host.Core.run]
  rw [show Sys2Proof.core.step s = .refused r from h]

end Sys2Proof.Machine
end

