-- ==== Sys2Proof/Laws/Mix.lean ====
section
/-! SUPPORT. The mixing primitives in the library's terms (spec/41_mixing_primitives.md). -/

namespace Sys2Proof.Machine

/-- The rotate of R73 is the library's rotate. -/
theorem rotr_eq {v : Word} {k : Nat} (h : k < 64) : rotr v k = v.rotateRight k := by
  rw [BitVec.rotateRight_def, Nat.mod_eq_of_lt h]
  unfold rotr
  split
  · next h0 => subst h0; simp
  · rfl

/-- Bit `i` of a rotate is bit `(i + k) mod 64` of the operand (R73). -/
theorem getLsbD_rotr {v : Word} {k i : Nat} (h : k < 64) (hi : i < 64) :
    (rotr v k).getLsbD i = v.getLsbD ((i + k) % 64) := by
  rw [rotr_eq h, BitVec.getLsbD_rotateRight]
  simp only [Nat.mod_eq_of_lt h, hi, decide_true, Bool.true_and, cond_eq_ite, decide_eq_true_eq]
  split
  · congr 1; omega
  · congr 1; omega

/-- The shift of SHIFTMIX as a quotient (R71). -/
theorem ushiftRight_eq_ofNat (v : Word) (k : Nat) : v >>> k = BitVec.ofNat 64 (v.toNat / 2 ^ k) := by
  apply BitVec.eq_of_toNat_eq
  simp only [BitVec.toNat_ushiftRight, Nat.shiftRight_eq_div_pow, BitVec.toNat_ofNat]
  have := v.isLt
  rw [Nat.mod_eq_of_lt]
  exact Nat.lt_of_le_of_lt (Nat.div_le_self _ _) this

/-- Byte `i` of the reversed word is byte `7 - i` of the word (R79). -/
theorem byte_bswap64 (v : Word) : ∀ i < 8, (bswap64 v).extractLsb' (8 * i) 8 = v.extractLsb' (8 * (7 - i)) 8 := by
  intro i hi
  apply BitVec.eq_of_getLsbD_eq
  intro j hj
  interval_cases i <;> simp only [bswap64, BitVec.getLsbD_extractLsb', BitVec.getLsbD_append, hj, decide_true, Bool.true_and]
    <;> interval_cases j <;> simp

/-- The weighted first word of band 4 to 7 as a number (R83). -/
theorem weighted_first_word (len q : Nat) :
    BitVec.ofNat 64 len + BitVec.ofNat 64 q <<< 3 = BitVec.ofNat 64 (len + 8 * q) := by
  apply BitVec.eq_of_toNat_eq
  simp only [BitVec.toNat_add, BitVec.toNat_shiftLeft, Nat.shiftLeft_eq, BitVec.toNat_ofNat]
  conv_rhs => rw [Nat.add_mod, Nat.mul_mod]
  conv_lhs => rw [← Nat.add_mod, Nat.add_mod, Nat.mul_mod]
  simp [Nat.mul_comm]

end Sys2Proof.Machine
end

