-- ==== Sys2Proof/Laws/PerInstr.lean ====
section
/-! SUPPORT. Statements made per operation, one lemma for each constructor of `Instr`.

`EncodeFits`: the command word of a well-formed operation is its length and fits LEN_W bits (spec/30_encoding.md R53,
R56), under every LEN_W. -/

namespace Sys2Proof.Laws.EncodeFits

def Statement (i : Instr) : Prop :=
  ∀ (p : Params) (w : Nat), i.wellFormed p = true → encode i = some w → w < 2 ^ p.lenW

/-- LEN_W is at least 7 (D1), so every length of a band of one step fits. -/
theorem fits {p : Params} {w : Nat} (h : w < 128) : w < 2 ^ p.lenW := by
  have : 2 ^ 7 ≤ 2 ^ p.lenW := Nat.pow_le_pow_right (by omega) (by unfold Params.lenW; omega)
  omega

/-- An operation of a band of one step. -/
theorem band {i : Instr} {len hi : Nat} (he : encode i = some len) (hh : hi < 128)
    (hw : ∀ p, i.wellFormed p = true → len ≤ hi) : Statement i := by
  intro p w h e
  rw [he] at e
  injection e with e
  have := hw p h
  exact fits (by omega)

/-- An operation of a row without a command word. -/
theorem unencoded {i : Instr} (h : encode i = none) : Statement i := by
  intro p w _ e
  rw [h] at e
  cases e

theorem h0 (len : Nat) : Statement (.h0 len) :=
  band (hi := 0) rfl (by omega) (fun _ h => by simp [Instr.wellFormed] at h; omega)

theorem h1_3 (len : Nat) : Statement (.h1_3 len) :=
  band (hi := 3) rfl (by omega) (fun _ h => by simp [Instr.wellFormed] at h; omega)

theorem h4_7 (len : Nat) : Statement (.h4_7 len) :=
  band (hi := 7) rfl (by omega) (fun _ h => by simp [Instr.wellFormed] at h; omega)

theorem h8_16 (len : Nat) : Statement (.h8_16 len) :=
  band (hi := 16) rfl (by omega) (fun _ h => by simp [Instr.wellFormed] at h; omega)

theorem h17_32 (len : Nat) : Statement (.h17_32 len) :=
  band (hi := 32) rfl (by omega) (fun _ h => by simp [Instr.wellFormed] at h; omega)

theorem h33_64 (len : Nat) : Statement (.h33_64 len) :=
  band (hi := 64) rfl (by omega) (fun _ h => by simp [Instr.wellFormed] at h; omega)

theorem h65p (len : Nat) : Statement (.h65p len) := by
  intro p w h e
  simp only [Instr.wellFormed, Bool.and_eq_true, decide_eq_true_eq] at h
  injection e with e
  omega

theorem hash64 (len : Nat) : Statement (.hash64 len) := by
  intro p w h e
  simp only [Instr.wellFormed, decide_eq_true_eq] at h
  injection e with e
  omega

theorem small0to16 (len : Nat) : Statement (.small0to16 len) := unencoded rfl
theorem h65pSeed : Statement .h65pSeed := unencoded rfl
theorem h65pChunk : Statement .h65pChunk := unencoded rfl
theorem h65pFinal : Statement .h65pFinal := unencoded rfl
theorem fetch64 (off : Nat) : Statement (.fetch64 off) := unencoded rfl
theorem fetch32 (off : Nat) : Statement (.fetch32 off) := unencoded rfl
theorem fetch8 (off : Nat) : Statement (.fetch8 off) := unencoded rfl
theorem loadBytes (off n : Nat) : Statement (.loadBytes off n) := unencoded rfl
theorem rotr (v : Word) (k : Nat) : Statement (.rotr v k) := unencoded rfl
theorem shiftMix (v : Word) : Statement (.shiftMix v) := unencoded rfl
theorem hashLen16M (u v m : Word) : Statement (.hashLen16M u v m) := unencoded rfl
theorem hashLen16 (u v : Word) : Statement (.hashLen16 u v) := unencoded rfl
theorem weakHash32 (w x y z a b : Word) : Statement (.weakHash32 w x y z a b) := unencoded rfl
theorem weakHash32M (off : Nat) (a b : Word) : Statement (.weakHash32M off a b) := unencoded rfl
theorem bswap64 (v : Word) : Statement (.bswap64 v) := unencoded rfl

end Sys2Proof.Laws.EncodeFits
end

