-- ==== Sys2Proof/Tests/Slice0.lean ====
section
/-! SUPPORT. Tests. Every expected number is written in spec/95_test_vectors.md (the section is named at each test) or
in the rule named; none was taken from the model. After them, for every statement with hypotheses, a witness that meets
all of them, at the boundary values of its clauses. -/

namespace Sys2Proof.Tests

open Sys2Proof.Machine

-- one theorem at a time: each kernel evaluation waits for all before it, and would hold a thread while it waits
set_option Elab.async false

/-! ### Small states -/

/-- `ramp(n)` of spec/95_test_vectors.md: the bytes 00 01 02 … -/
def ramp (n : Nat) : List Byte := (List.range n).map (BitVec.ofNat 8)

/-- `zeros(n)` of spec/95_test_vectors.md. -/
def zeros (n : Nat) : List Byte := List.replicate n 0

/-- A unit after reset whose host has placed the bytes. -/
def ready (bs : List Byte) : State := { State.reset with buf := placeBytes bs }

/-- The same with the length latched, as inside a call. -/
def latched (bs : List Byte) : State := { ready bs with len := BitVec.ofNat 64 bs.length }

/-- The unit of `ready` with the host's next input. -/
def given (h : HostInput) (bs : List Byte) : State := { ready bs with inputs := [h] }

/-- The buffer of section 2.1. -/
def bufB : List Byte := [0x01, 0x02, 0x03, 0x04, 0x05, 0x06, 0x07, 0x08, 0x09, 0x0a]

/-- Program P3 after its seed step, register by register (section 4, P3). -/
def seeded65 : State :=
  { ready (ramp 65) with
    len := 65, pos := 0, rem := 64, phase := .seeded
    acc := { x := 0x462cf4f64eb25c3b, y := 0x48464442403e3c3a, z := 0x12e28302951222d4, v0 := 0x504c4844403c3875
             v1 := 0x2c72c1ef2eff2abd, w0 := 0xcda5c376bf93e761, w1 := 0xfdc15a8ce96cb310 } }

/-- Program P3 after its one chunk step (section 4, P3). -/
def looped65 : State :=
  { ready (ramp 65) with
    len := 65, pos := 64, rem := 0, phase := .looped
    acc := { x := 0xeb3febd9cb8a8bf4, y := 0x282ddfe1684e3b27, z := 0xbd0fe24d0f6cd30c, v0 := 0x76deac4c35771117
             v1 := 0x022979bafdb5d921, w0 := 0xb5ca0b2771aff3b4, w1 := 0x8e076f5bcccead55 } }

/-- Program P4 after its first chunk step (section 4, P4). -/
def loop200 : State :=
  { ready (ramp 200) with
    len := 200, pos := 64, rem := 128, phase := .loop
    acc := { x := 0x11290f4c8ba1f883, y := 0x8a595bd2af5e0646, z := 0x31b3897c50af948a, v0 := 0xc4c7bd04dc6ad7b3
             v1 := 0x7947192ddd9726f9, w0 := 0xf9d134b84fb57e5f, w1 := 0x15cac676eab4899c } }

/-! ### Reading an outcome -/

abbrev Out := Host.Outcome State Fault Refusal

def resultOf : Out → Option Word
  | .next t    => some t.result
  | .fault _   => none
  | .refused _ => none

def okOf : Out → Option Value
  | .next t    => t.ok
  | .fault _   => none
  | .refused _ => none

def refusalOf : Out → Option Refusal
  | .next _    => none
  | .fault _   => none
  | .refused r => some r

def stateOf : Out → Option State
  | .next t    => some t
  | .fault _   => none
  | .refused _ => none

def isNext : Out → Bool
  | .next _    => true
  | .fault _   => false
  | .refused _ => false

theorem exists_of_isNext {o : Out} (h : isNext o = true) : ∃ t, o = .next t := by
  cases o with
  | next t    => exact ⟨t, rfl⟩
  | fault f   => cases h
  | refused r => cases h

/-! ### WellFormed: one ill-formed term for each check -/

theorem test_wellFormed_refuses :
    [Instr.h0 1, .h1_3 0, .h1_3 4, .h4_7 3, .h4_7 8, .h8_16 7, .h8_16 17, .h17_32 16, .h17_32 33, .h33_64 32,
      .h33_64 65, .h65p 64, .h65p (2 ^ 64), .hash64 (2 ^ 64), .small0to16 17, .loadBytes 0 9, .rotr 1 64].all
      (fun i => !i.wellFormed decidedParams) = true := by decide

theorem test_wellFormed_accepts :
    [Instr.h0 0, .h1_3 1, .h1_3 3, .h4_7 4, .h4_7 7, .h8_16 8, .h8_16 16, .h17_32 17, .h17_32 32, .h33_64 33,
      .h33_64 64, .h65p 65, .h65p (2 ^ 64 - 1), .hash64 0, .hash64 (2 ^ 64 - 1), .small0to16 0, .small0to16 16,
      .loadBytes 0 0, .loadBytes 0 8, .rotr 1 0, .rotr 1 63, .h65pSeed, .h65pChunk, .h65pFinal].all
      (fun i => i.wellFormed decidedParams) = true := by decide

/-! ### Decode (spec/30_encoding.md R53 to R57): the word is the length, bit 0 the least significant -/

/-- The command words of the programs of section 4, bit by bit. -/
theorem test_decode_words :
    decodeTableWord 64 0b0 = some (.h0 0) ∧
    decodeTableWord 64 0b11 = some (.h1_3 3) ∧
    decodeTableWord 64 0b101 = some (.h4_7 5) ∧
    decodeTableWord 64 0b10000 = some (.h8_16 16) ∧
    decodeTableWord 64 0b10001 = some (.h17_32 17) ∧
    decodeTableWord 64 0b101000 = some (.h33_64 40) ∧
    decodeTableWord 64 0b1000001 = some (.h65p 65) ∧
    decodeTableWord 64 0b11001000 = some (.h65p 200) := by decide

/-- The tier edges of R56. -/
theorem test_decode_edges :
    [0, 1, 3, 4, 7, 8, 16, 17, 32, 33, 64, 65].map (decodeTableWord 64) =
      [some (.h0 0), some (.h1_3 1), some (.h1_3 3), some (.h4_7 4), some (.h4_7 7), some (.h8_16 8), some (.h8_16 16),
        some (.h17_32 17), some (.h17_32 32), some (.h33_64 33), some (.h33_64 64), some (.h65p 65)] := by decide

/-- Section 3.10: `len = 2^LEN_W` is refused, `len = 2^LEN_W - 1` accepted. -/
theorem test_decode_lenRange :
    decodeTableWord 65 (2 ^ 64) = none ∧ decodeTableWord 64 (2 ^ 64 - 1) = some (.h65p (2 ^ 64 - 1)) := by decide

theorem test_encode : encode (.h17_32 17) = some 0b10001 ∧ encode .h65pSeed = none := by decide

/-! ### The loader (section 2.1) -/

theorem test_fetch64 :
    okOf (exec (.fetch64 1) (latched bufB)) = some (.u64 0x0908070605040302) ∧
    refusalOf (exec (.fetch64 3) (latched bufB)) = some .outOfBounds := by decide +kernel

theorem test_fetch64_order :
    okOf (exec (.fetch64 0) (latched [0xff, 0xfe, 0xfd, 0xfc, 0x80, 0x00, 0x00, 0x01])) =
      some (.u64 0x01000080fcfdfeff) := by decide +kernel

theorem test_fetch32 :
    okOf (exec (.fetch32 6) (latched bufB)) = some (.u32 0x0a090807) ∧
    refusalOf (exec (.fetch32 7) (latched bufB)) = some .outOfBounds := by decide +kernel

theorem test_fetch8 :
    okOf (exec (.fetch8 9) (latched bufB)) = some (.u8 0x0a) ∧
    refusalOf (exec (.fetch8 10) (latched bufB)) = some .outOfBounds := by decide +kernel

theorem test_loadBytes :
    okOf (exec (.loadBytes 0 3) (latched bufB)) = some (.u64 0x030201) ∧
    [0, 10, 11].map (fun off => okOf (exec (.loadBytes off 0) (latched bufB))) =
      [some (.u64 0), some (.u64 0), some (.u64 0)] ∧
    okOf (exec (.loadBytes 0 8) (latched bufB)) = some (.u64 0x0807060504030201) ∧
    refusalOf (exec (.loadBytes 0 9) (latched bufB)) = some .loadLength := by decide +kernel

/-! ### The mixing primitives (sections 2.2 to 2.7) -/

theorem test_rotr :
    [0, 1, 4, 18, 37, 44, 63].map (fun k => okOf (exec (.rotr 0x0123456789abcdef k) (ready []))) =
      [some (.u64 0x0123456789abcdef), some (.u64 0x8091a2b3c4d5e6f7), some (.u64 0xf0123456789abcde),
        some (.u64 0xf37bc048d159e26a), some (.u64 0x3c4d5e6f78091a2b), some (.u64 0x56789abcdef01234),
        some (.u64 0x02468acf13579bde)] := by decide +kernel

theorem test_rotr_64 : refusalOf (exec (.rotr 0x0123456789abcdef 64) (ready [])) = some .shiftRange := by decide +kernel

theorem test_shiftMix :
    okOf (exec (.shiftMix 0x9ae16a3b2f90404f) (ready [])) = some (.u64 0x9ae16a3b2f91758d) ∧
    okOf (exec (.shiftMix 0xffffffffffffffff) (ready [])) = some (.u64 0xfffffffffffe0000) := by decide +kernel

/-- Not the reading without the second XOR, whose value section 2.5 gives as false. -/
theorem test_hashLen16M :
    okOf (exec (.hashLen16M 0x0123456789abcdef 0xfedcba9876543210 0x9ae16a3b2f90405f) (ready [])) =
      some (.u64 0x65e296998204d617) ∧
    okOf (exec (.hashLen16M 3 5 2) (ready [])) = some (.u64 0x24) := by decide +kernel

theorem test_hashLen16 :
    okOf (exec (.hashLen16 1 2) (ready [])) = some (.u64 0x86668a560ec835a1) ∧
    okOf (exec (.hashLen16 2 1) (ready [])) = some (.u64 0xd1aa4377fbb56312) := by decide +kernel

theorem test_weakHash32 :
    okOf (exec (.weakHash32 1 2 3 4 5 6) (ready [])) = some (.pair 0xf 0x0000800000b00006) ∧
    okOf (exec (.weakHash32 0x0123456789abcdef 0xfedcba9876543210 K0 K1 K2 KMUL) (ready [])) =
      some (.pair 0x1319e90785f463e8 0x2ef1fccd8b12d1c9) := by decide +kernel

theorem test_weakHash32M :
    okOf (exec (.weakHash32M 8 1 2) (latched (ramp 40))) = some (.pair 0x6c6864605c585451 0x6422fa20dfafde9d) ∧
    refusalOf (exec (.weakHash32M 9 1 2) (latched (ramp 40))) = some .outOfBounds := by decide +kernel

theorem test_bswap64 :
    okOf (exec (.bswap64 0x0123456789abcdef) (ready [])) = some (.u64 0xefcdab8967452301) ∧
    okOf (exec (.bswap64 0xff00000000000000) (ready [])) = some (.u64 0xff) := by decide +kernel

theorem test_mul :
    mul 4 = 0x9ae16a3b2f904057 ∧ mul 17 = 0x9ae16a3b2f904071 ∧ mul 64 = 0x9ae16a3b2f9040cf := by decide +kernel

/-! ### The bands (sections 1.2, 3.1 to 3.4) -/

theorem test_h0 :
    resultOf (exec (.h0 0) (ready [])) = some 0x9ae16a3b2f90404f ∧
    refusalOf (exec (.h0 1) (ready [0])) = some .bandMismatch := by decide +kernel

/-- "abc"; and three bytes above 7f, which a signed load would get wrong. -/
theorem test_h1_3 :
    resultOf (exec (.h1_3 3) (ready [0x61, 0x62, 0x63])) = some 0x24a5b3a074e7f369 ∧
    resultOf (exec (.h1_3 3) (ready [0x80, 0x90, 0xa0])) = some 0xef989137f32be13b := by decide +kernel

theorem test_h1_3_edges :
    resultOf (exec (.h1_3 1) (ready [0xff])) = some 0x21a855c065a526e7 ∧
    resultOf (exec (.h1_3 2) (ready [0x00, 0x01])) = some 0xc2a04665ed038d75 := by decide +kernel

/-- "hello"; and ff(4), whose shifted word needs 35 bits. -/
theorem test_h4_7 :
    resultOf (exec (.h4_7 5) (ready [0x68, 0x65, 0x6c, 0x6c, 0x6f])) = some 0xb48be5a931380ce8 ∧
    resultOf (exec (.h4_7 4) (ready [0xff, 0xff, 0xff, 0xff])) = some 0x2f8fc2fd6291b6a4 := by decide +kernel

theorem test_h8_16 :
    resultOf (exec (.h8_16 12) (ready (ramp 12))) = some 0x9fd5df33aefc3d7d ∧
    resultOf (exec (.h8_16 16) (ready (ramp 16))) = some 0x0efd25a0a34156d4 := by decide +kernel

/-- The other value of the bias (section 3.4). -/
theorem test_h8_16_bias :
    resultOf (exec (.h8_16 12) { ready (ramp 12) with params := { decidedParams with aBias := .zero } }) =
      some 0x60eaf74a80337a9e := by decide +kernel

theorem test_h17_32 :
    resultOf (exec (.h17_32 17) (ready (ramp 17))) = some 0xbbb6a6f8f20d1f1c ∧
    resultOf (exec (.h17_32 32) (ready (ramp 32))) = some 0x1a9d8199972cdf49 := by decide +kernel

theorem test_h33_64 :
    resultOf (exec (.h33_64 33) (ready (ramp 33))) = some 0x46e1378cbc22daba ∧
    resultOf (exec (.h33_64 64) (ready (ramp 64))) = some 0xe99ab80f5ec7dca5 := by decide +kernel

theorem test_small0to16 :
    resultOf (exec (.small0to16 7) (ready (ramp 7))) = some 0xa2e0bff20db0a6a1 ∧
    refusalOf (exec (.small0to16 17) (ready (ramp 17))) = some .bandMismatch := by decide +kernel

/-! ### The large engine (section 4, P3 to P5) -/

theorem test_h65pSeed : stateOf (exec .h65pSeed (latched (ramp 65))) = some seeded65 := by decide +kernel

theorem test_h65pChunk : stateOf (exec .h65pChunk seeded65) = some looped65 := by decide +kernel

/-- The second trip round the loop of program P4: PHASE stays LOOP. -/
theorem test_h65pChunk_loops :
    (stateOf (exec .h65pChunk loop200)).map (fun t => (t.phase, t.pos, t.rem, t.acc.x, t.acc.w1)) =
      some (.loop, 128, 64, 0x94badb34c7a74cae, 0x184c29b61602080e) := by decide +kernel

theorem test_h65pFinal : resultOf (exec .h65pFinal looped65) = some 0xac589c990483dd2e := by decide +kernel

theorem test_h65p :
    resultOf (exec (.h65p 65) (ready (ramp 65))) = some 0xac589c990483dd2e ∧
    refusalOf (exec (.h65p 64) (ready (ramp 64))) = some .bandMismatch := by decide +kernel

/-- Program P5: the same 128 bytes under both chunk counts. -/
theorem test_h65p_chunkMode :
    resultOf (exec (.h65p 128) (ready (ramp 128))) = some 0x524852f8e8f9c4f0 ∧
    resultOf (exec (.h65p 128)
      { ready (ramp 128) with params := { decidedParams with chunkMode := .floorLenMinus1 } }) =
      some 0x10b153630af1f395 := by decide +kernel

/-- Program P4; and program P7, a buffer readable for 12 bytes only. -/
theorem test_hash64 :
    resultOf (exec (.hash64 200) (ready (ramp 200))) = some 0xf4d24e8c7493c3d8 ∧
    refusalOf (exec (.hash64 20) (ready (ramp 12))) = some .outOfBounds := by decide +kernel

/-! ### The machine -/

/-- Program P1, command 3: START of "abc" in one step. -/
theorem test_step_start :
    (stateOf (step (given (.start 3) [0x61, 0x62, 0x63]))).map (fun t => (t.phase, t.len, t.result)) =
      some (.done, 3, 0x24a5b3a074e7f369) := by decide +kernel

/-- Program P3, first step: the START latches LEN and runs the seed step. -/
theorem test_step_start_large : stateOf (step (given (.start 65) (ramp 65))) = some seeded65 := by decide +kernel

/-- Section 3.10: START while PHASE = LOOP. -/
theorem test_step_busy :
    refusalOf (step { loop200 with inputs := [.start 3] }) = some .busy := by decide +kernel

/-- R52: a call during which some agent writes the buffer has no meaning, whatever it writes; the byte after the last is
no part of the buffer (R13). -/
theorem test_step_bufferChanged :
    [HostInput.write 199 0, .write 199 199, .place (ramp 200)].map
      (fun h => refusalOf (step { loop200 with inputs := [h] })) =
      [some .bufferChanged, some .bufferChanged, some .bufferChanged] ∧
    isNext (step { loop200 with inputs := [.write 200 0] }) = true := by decide +kernel

/-- Section 3.10: RESULT holds no value while DONE = 0. -/
theorem test_step_readResult : step (given .readResult []) = .fault (.unwrittenRead "RESULT") := rfl

/-- The word placed after reset is the one that runs (program P1, command 2). -/
theorem test_withFetchWord :
    (stateOf (step (State.reset.withFetchWord 64 0))).map (fun t => (t.phase, t.len, t.result)) =
      some (.done, 0, 0x9ae16a3b2f90404f) := by decide +kernel

/-! ### Witnesses -/

theorem readable_ready {n : Nat} {bs : List Byte} (h : n ≤ bs.length) : Readable n (ready bs) := by
  simpa [Readable, ready] using h

theorem readable_latched {n : Nat} {bs : List Byte} (h : n ≤ bs.length) : Readable n (latched bs) := readable_ready h

theorem inv_reset : Inv State.reset where
  bufWf  := rfl
  lenFit := by decide
  posFit := by decide
  remFit := by decide
  call   := fun h => by cases h

theorem inv_ready (bs : List Byte) : Inv (ready bs) where
  bufWf  := wf_placeBytes bs
  lenFit := Nat.two_pow_pos _
  posFit := Nat.two_pow_pos _
  remFit := Nat.two_pow_pos _
  call   := fun h => by cases h

theorem inv_seeded65 : Inv seeded65 where
  bufWf  := wf_placeBytes _
  lenFit := by decide
  posFit := by decide
  remFit := by decide
  call   := fun _ =>
    { long := by decide, readable := readable_ready (n := 65) (by decide), sum := by decide, aligned := by decide
      seeded := fun _ => rfl, loop := by decide, looped := by decide }

theorem inv_loop200 : Inv loop200 where
  bufWf  := wf_placeBytes _
  lenFit := by decide
  posFit := by decide
  remFit := by decide
  call   := fun _ =>
    { long := by decide, readable := readable_ready (n := 200) (by simp [ramp]), sum := by decide, aligned := by decide
      seeded := by decide, loop := by decide, looped := by decide }

theorem inv_looped65 : Inv looped65 where
  bufWf  := wf_placeBytes _
  lenFit := by decide
  posFit := by decide
  remFit := by decide
  call   := fun _ =>
    { long := by decide, readable := readable_ready (n := 65) (by decide), sum := by decide, aligned := by decide
      seeded := by decide, loop := by decide, looped := by decide }

/-- Both ends of every band, and the largest length. -/
theorem test_witness_LengthSelectsTheOperation :
    [0, 1, 3, 4, 7, 8, 16, 17, 32, 33, 64, 65, 2 ^ 64 - 1].all (fun len => decide (len < 2 ^ decidedParams.lenW)) = true ∧
    (0 : Nat) = 0 ∧ (1 ≤ 1 ∧ 1 ≤ 3 ∧ 3 ≤ 3) ∧ (4 ≤ 4 ∧ 7 ≤ 7) ∧ (8 ≤ 8 ∧ 16 ≤ 16) ∧ (17 ≤ 17 ∧ 32 ≤ 32) ∧
    (33 ≤ 33 ∧ 64 ≤ 64) ∧ 65 ≤ 65 ∧ 65 ≤ 2 ^ 64 - 1 := by decide

theorem test_witness_SampleWordsDecode : 8 ≤ decidedParams.lenW := by decide

theorem test_witness_DecodeEncodeAgree :
    [Instr.h0 0, .h1_3 1, .h1_3 3, .h4_7 4, .h4_7 7, .h8_16 8, .h8_16 16, .h17_32 17, .h17_32 32, .h33_64 33,
      .h33_64 64, .h65p 65, .h65p (2 ^ 64 - 1)].all (fun i => i.isCall && i.wellFormed decidedParams) = true ∧
    decode decidedParams 65 = .ok (.h65p 65) := ⟨by decide, rfl⟩

theorem test_witness_WrittenByteIsReadBack : Memory.wf (placeBytes (ramp 3)) = true ∧ 2 ≠ 1 := by decide

theorem test_witness_ReadableMeansEveryByteIsThere : Memory.wf (ready (ramp 3)).buf = true := by decide

theorem test_witness_LoadsAnswerTheLittleEndianNumber :
    Readable (latched bufB).len.toNat (latched bufB) ∧ 2 + 8 ≤ (latched bufB).len.toNat ∧
    6 + 4 ≤ (latched bufB).len.toNat ∧ 9 + 1 ≤ (latched bufB).len.toNat :=
  ⟨readable_latched (by decide), by decide, by decide, by decide⟩

/-- Each load at its last legal offset. -/
theorem test_witness_LoadedNumberFitsItsWidth :
    loadNat (latched bufB) 2 8 = .ok 0x0a09080706050403 ∧ fetch64 (latched bufB) 2 = .ok 0x0a09080706050403 ∧
    fetch32 (latched bufB) 6 = .ok 0x0a090807 ∧ fetch8 (latched bufB) 9 = .ok 0x0a := ⟨rfl, rfl, rfl, rfl⟩

/-- One byte past the end for each load; and a buffer of nine bytes under a latched length of ten. -/
theorem test_witness_LoadsOutsideAreRefused :
    (latched bufB).len.toNat < 3 + 8 ∧ (latched bufB).len.toNat < 7 + 4 ∧ (latched bufB).len.toNat < 10 + 1 ∧
    (latched (ramp 40)).len.toNat < 9 + 32 ∧
    (1 ≤ 1 ∧ 1 ≤ 8 ∧ (latched bufB).len.toNat < 10 + 1) ∧ (1 ≤ 8 ∧ 8 ≤ 8 ∧ (latched bufB).len.toNat < 3 + 8) ∧
    (readByte (2 + 7) (placeBytes (ramp 9)) = none ∧ 7 < 8) ∧ (readByte (6 + 3) (placeBytes (ramp 9)) = none ∧ 3 < 4) ∧
    readByte 9 (placeBytes (ramp 9)) = none ∧ (31 < 32 ∧ readByte (8 + 31) (placeBytes (ramp 39)) = none) ∧
    (1 ≤ 8 ∧ 0 < 1 ∧ readByte (9 + 0) (placeBytes (ramp 9)) = none) ∧
    (8 ≤ 8 ∧ 7 < 8 ∧ readByte (2 + 7) (placeBytes (ramp 9)) = none) := by decide

theorem test_witness_LoadBytesPacksLittleEndian :
    Readable (latched bufB).len.toNat (latched bufB) ∧ (8 < 9 ∧ 2 + 8 ≤ (latched bufB).len.toNat) ∧
    (0 < 9 ∧ 10 + 0 ≤ (latched bufB).len.toNat) ∧ 9 ≤ 9 :=
  ⟨readable_latched (by decide), by decide, by decide, by decide⟩

theorem test_witness_RotateRightMovesTheBits : 0 < 64 ∧ 63 < 64 ∧ 64 ≤ 64 := by decide

theorem test_witness_ShiftMixFoldsBitsDown :
    (0x00007fffffffffff#64).toNat < 2 ^ 47 ∧ (17 ≤ 17 ∧ 17 < 64) ∧ (17 ≤ 63 ∧ 63 < 64) := by decide

theorem test_witness_WeakHashOfAWindow :
    Readable (latched (ramp 40)).len.toNat (latched (ramp 40)) ∧ 8 + 32 ≤ (latched (ramp 40)).len.toNat :=
  ⟨readable_latched (by decide), by decide⟩

theorem test_witness_ByteReversal : 0 < 8 ∧ 7 < 8 := by decide

theorem test_witness_LengthMultiplier :
    (4 ≤ (4#64).toNat ∧ (4#64).toNat ≤ 64) ∧ (4 ≤ (64#64).toNat ∧ (64#64).toNat ≤ 64) := by decide

theorem test_witness_ChunkCountBounds : 65 ≤ 65 ∧ 65 ≤ 128 := by decide

theorem test_witness_EmptyInputHashesToK2 : busyFlag (ready []) = false := rfl

theorem test_witness_BandOneToThreeCompletes :
    busyFlag (ready (ramp 3)) = false ∧ (1 ≤ 1 ∧ 1 ≤ 3 ∧ Readable 1 (ready (ramp 3))) ∧
    (1 ≤ 3 ∧ 3 ≤ 3 ∧ Readable 3 (ready (ramp 3))) :=
  ⟨rfl, ⟨by decide, by decide, readable_ready (by decide)⟩, by decide, by decide, readable_ready (by decide)⟩

theorem test_witness_BandFourToSevenCompletes :
    busyFlag (ready (ramp 7)) = false ∧ (4 ≤ 4 ∧ 4 ≤ 7 ∧ Readable 4 (ready (ramp 7))) ∧
    (4 ≤ 7 ∧ 7 ≤ 7 ∧ Readable 7 (ready (ramp 7))) :=
  ⟨rfl, ⟨by decide, by decide, readable_ready (by decide)⟩, by decide, by decide, readable_ready (by decide)⟩

theorem test_witness_BandEightToSixteenCompletes :
    busyFlag (ready (ramp 16)) = false ∧ (8 ≤ 8 ∧ 8 ≤ 16 ∧ Readable 8 (ready (ramp 16))) ∧
    (8 ≤ 16 ∧ 16 ≤ 16 ∧ Readable 16 (ready (ramp 16))) :=
  ⟨rfl, ⟨by decide, by decide, readable_ready (by decide)⟩, by decide, by decide, readable_ready (by decide)⟩

theorem test_witness_BandSeventeenToThirtyTwoCompletes :
    busyFlag (ready (ramp 32)) = false ∧ (17 ≤ 17 ∧ 17 ≤ 32 ∧ Readable 17 (ready (ramp 32))) ∧
    (17 ≤ 32 ∧ 32 ≤ 32 ∧ Readable 32 (ready (ramp 32))) :=
  ⟨rfl, ⟨by decide, by decide, readable_ready (by decide)⟩, by decide, by decide, readable_ready (by decide)⟩

theorem test_witness_BandThirtyThreeToSixtyFourCompletes :
    busyFlag (ready (ramp 64)) = false ∧ (33 ≤ 33 ∧ 33 ≤ 64 ∧ Readable 33 (ready (ramp 64))) ∧
    (33 ≤ 64 ∧ 64 ≤ 64 ∧ Readable 64 (ready (ramp 64))) :=
  ⟨rfl, ⟨by decide, by decide, readable_ready (by decide)⟩, by decide, by decide, readable_ready (by decide)⟩

theorem test_witness_SmallTierSelectsItsBand :
    (8 ≤ 8 ∧ 8 ≤ 16 ∧ 16 ≤ 16) ∧ (4 ≤ 4 ∧ 4 ≤ 7 ∧ 7 ≤ 7) ∧ (1 ≤ 1 ∧ 1 ≤ 3 ∧ 3 ≤ 3) ∧ (0 : Nat) = 0 ∧
    16 < 17 ∧ 17 < 2 ^ (ready (ramp 17)).params.lenW ∧ busyFlag (ready (ramp 17)) = false := by decide

theorem test_witness_SmallTierCompletes :
    busyFlag (ready (ramp 16)) = false ∧ (0 ≤ 16 ∧ Readable 0 (ready (ramp 16))) ∧
    (16 ≤ 16 ∧ Readable 16 (ready (ramp 16))) :=
  ⟨rfl, ⟨by decide, readable_ready (by decide)⟩, by decide, readable_ready (by decide)⟩

theorem test_witness_SeedStepCompletes :
    busyFlag (latched (ramp 65)) = false ∧ 65 ≤ (latched (ramp 65)).len.toNat ∧
    (latched (ramp 65)).len.toNat < 2 ^ (latched (ramp 65)).params.lenW ∧
    Readable (latched (ramp 65)).len.toNat (latched (ramp 65)) :=
  ⟨rfl, by decide, by decide, readable_latched (by decide)⟩

/-- The last chunk of a call (REM = 64, PHASE = SEEDED), and one with another after it (PHASE = LOOP). -/
theorem test_witness_ChunkStepCompletes :
    ((seeded65.phase = .seeded ∨ seeded65.phase = .loop) ∧ 64 ≤ seeded65.rem.toNat ∧
      seeded65.pos.toNat + 64 ≤ seeded65.len.toNat ∧ Readable seeded65.len.toNat seeded65) ∧
    ((loop200.phase = .seeded ∨ loop200.phase = .loop) ∧ 64 ≤ loop200.rem.toNat ∧
      loop200.pos.toNat + 64 ≤ loop200.len.toNat ∧ Readable loop200.len.toNat loop200) :=
  ⟨⟨.inl rfl, by decide, by decide, readable_ready (n := 65) (by decide)⟩,
    .inr rfl, by decide, by decide, readable_ready (n := 200) (by simp [ramp])⟩

theorem test_witness_FinalStepCompletes : looped65.phase = .looped := rfl

theorem test_witness_LargeEngineCompletes :
    busyFlag (ready (ramp 65)) = false ∧ 65 ≤ 65 ∧ 65 < 2 ^ (ready (ramp 65)).params.lenW ∧ Readable 65 (ready (ramp 65)) :=
  ⟨rfl, by decide, by decide, readable_ready (by decide)⟩

theorem test_witness_PublicFunctionIsTotalAndCorrect :
    (busyFlag (ready []) = false ∧ 0 < 2 ^ (ready []).params.lenW ∧ Readable 0 (ready [])) ∧
    (busyFlag (ready (ramp 65)) = false ∧ 65 < 2 ^ (ready (ramp 65)).params.lenW ∧ Readable 65 (ready (ramp 65))) :=
  ⟨⟨rfl, by decide, readable_ready (by decide)⟩, rfl, by decide, readable_ready (by decide)⟩

theorem test_witness_DispatcherRoutesByLength :
    16 ≤ 16 ∧ (17 ≤ 17 ∧ 32 ≤ 32) ∧ (33 ≤ 33 ∧ 64 ≤ 64) ∧ 65 ≤ 65 := by decide

/-- Each clause: a length of 2^64; a START during a call; a buffer of 12 bytes for a length of 20; a call that runs. -/
theorem test_witness_CallRefusedExactlyOutsideTheContract :
    2 ^ (ready []).params.lenW ≤ 2 ^ 64 ∧ (3 < 2 ^ loop200.params.lenW ∧ busyFlag loop200 = true) ∧
    (20 < 2 ^ (ready (ramp 12)).params.lenW ∧ busyFlag (ready (ramp 12)) = false ∧ ¬ Readable 20 (ready (ramp 12))) ∧
    (∃ t, exec (.hash64 12) (ready (ramp 12)) = .next t) :=
  ⟨by decide, by decide, ⟨by decide, rfl, by simp [Readable, ready, ramp]⟩, exists_of_isNext (by decide +kernel)⟩

theorem test_witness_LengthOutsideTheBandIsRefused :
    busyFlag (ready (ramp 65)) = false ∧
    [0, 1, 3, 4, 7, 8, 16, 17, 32, 33, 64, 65].all (fun len => decide (len < 2 ^ (ready (ramp 65)).params.lenW)) = true ∧
    1 ≠ 0 ∧ (0 < 1 ∧ 3 < 4) ∧ (3 < 4 ∧ 7 < 8) ∧ (7 < 8 ∧ 16 < 17) ∧ (16 < 17 ∧ 32 < 33) ∧ (32 < 33 ∧ 64 < 65) ∧
    64 < 65 ∧ 16 < 17 := by decide

theorem test_witness_StepsOutsideTheirPhaseAreRefused :
    (looped65.phase ≠ .seeded ∧ looped65.phase ≠ .loop) ∧ seeded65.phase ≠ .looped ∧ busyFlag looped65 = true := by decide

/-- Two units, one fresh and one in DONE with other registers and one more byte, with the same first 65 bytes. -/
theorem test_witness_ResultDependsOnTheBytesAlone :
    let s₁ := ready (ramp 65)
    let s₂ := { looped65 with phase := .done, buf := placeBytes (ramp 66) }
    busyFlag s₁ = false ∧ busyFlag s₂ = false ∧ 65 < 2 ^ s₁.params.lenW ∧ 65 < 2 ^ s₂.params.lenW ∧
    Readable 65 s₁ ∧ Readable 65 s₂ ∧ s₁.params.chunkMode = s₂.params.chunkMode ∧ s₁.params.aBias = s₂.params.aBias ∧
    (∀ a, a < 65 → readByte a s₁.buf = readByte a s₂.buf) :=
  ⟨rfl, rfl, by decide, by decide, readable_ready (by decide), readable_ready (bs := ramp 66) (by decide), rfl, rfl,
    by decide +kernel⟩

theorem test_witness_ChunkModesAgreeOffTheMultiples :
    (busyFlag (ready (ramp 65)) = false ∧ 65 < 2 ^ (ready (ramp 65)).params.lenW ∧ Readable 65 (ready (ramp 65)) ∧
      (65 % 64 ≠ 0 ∨ 65 < 128)) ∧
    (busyFlag (ready (ramp 129)) = false ∧ 129 < 2 ^ (ready (ramp 129)).params.lenW ∧
      Readable 129 (ready (ramp 129)) ∧ (129 % 64 ≠ 0 ∨ 129 < 128)) :=
  ⟨⟨rfl, by decide, readable_ready (by decide), by decide⟩, rfl, by decide, readable_ready (by simp [ramp]), by decide⟩

theorem test_witness_NoOperationWritesMemory : ∃ t, exec (.h65p 65) (ready (ramp 65)) = .next t :=
  exists_of_isNext (by decide +kernel)

theorem test_witness_OnlyTheLargeEngineWritesAccumulators :
    (∃ t, exec (.hash64 64) (ready (ramp 64)) = .next t) ∧ (∀ len, Instr.hash64 64 ≠ .h65p len) ∧
    (∀ len, 65 ≤ len → Instr.hash64 64 ≠ .hash64 len) ∧ Instr.hash64 64 ≠ .h65pSeed ∧ Instr.hash64 64 ≠ .h65pChunk :=
  ⟨exists_of_isNext (by decide +kernel), by simp, fun len h e => by injection e with e; omega, by simp, by simp⟩

/-- A call that changes RESULT; a step that ends no call; and the finalize step, which leaves LEN. -/
theorem test_witness_ResultIsWrittenOnlyAtTheEndOfACall :
    (∃ t, exec (.h0 0) (ready []) = .next t ∧ t.result ≠ (ready []).result) ∧
    ((∃ t, exec .h65pChunk seeded65 = .next t) ∧ Instr.h65pChunk.isCall = false ∧
      (∀ len, Instr.h65pChunk ≠ .hash64 len) ∧ (∀ len, Instr.h65pChunk ≠ .small0to16 len) ∧
      Instr.h65pChunk ≠ .h65pFinal) ∧
    ((∃ t, exec .h65pFinal looped65 = .next t) ∧ Instr.h65pFinal.isCall = false) :=
  ⟨⟨_, rfl, by decide⟩, ⟨exists_of_isNext (by decide +kernel), rfl, by simp, by simp, by simp⟩,
    exists_of_isNext (by decide +kernel), rfl⟩

theorem test_witness_OnlyReadingAnInvalidResultFaults :
    step (given .readResult []) = .fault (.unwrittenRead "RESULT") := rfl

/-- An operation, and a step, that answers a next state, and one that is refused; a step that faults. -/
theorem test_witness_TheDeliveredValueIsNeverRead :
    ((∃ t, exec (.h65p 65) (ready (ramp 65)) = .next t) ∧ exec (.rotr 1 64) (ready []) = .refused .shiftRange) ∧
    (∃ t, step (given .readBusy []) = .next t) ∧ step (given (.start 3) []) = .refused .outOfBounds ∧
    step (given .readResult []) = .fault (.unwrittenRead "RESULT") :=
  ⟨⟨exists_of_isNext (by decide +kernel), rfl⟩, ⟨_, rfl⟩, rfl, rfl⟩

/-- A chunk step on program P4's buffer with and without 8 more bytes, and a load refused on both. -/
theorem test_witness_BytesBeyondTheLengthAreNotSeen :
    Instr.h65pChunk.isCall = false ∧ (∀ len, Instr.h65pChunk ≠ .hash64 len) ∧
    (∀ len, Instr.h65pChunk ≠ .small0to16 len) ∧ Instr.h65pChunk ≠ .h65pSeed ∧
    (∀ a, a < loop200.len.toNat → readByte a (placeBytes (ramp 208)) = readByte a loop200.buf) ∧
    (∃ t, exec .h65pChunk loop200 = .next t) ∧ exec (.fetch64 193) loop200 = .refused .outOfBounds :=
  ⟨rfl, by simp, by simp, by simp, by decide +kernel, exists_of_isNext (by decide +kernel), rfl⟩

/-- A START of each clause: a length of one step; of the large engine; during a call; with too short a buffer; and a
word that is none. -/
theorem test_witness_StepRunsTheDecodedOperation :
    (currentInput (given (.start 64) (ramp 64)) = .start 64 ∧ decode decidedParams 64 = .ok (.h33_64 64) ∧ 64 ≤ 64) ∧
    (currentInput (given (.start 65) (ramp 65)) = .start 65 ∧ decode decidedParams 65 = .ok (.h65p 65) ∧ 65 ≤ 65 ∧
      busyFlag (given (.start 65) (ramp 65)) = false ∧ Readable 65 (given (.start 65) (ramp 65))) ∧
    (currentInput { loop200 with inputs := [.start 3] } = .start 3 ∧ decode decidedParams 3 = .ok (.h1_3 3) ∧
      busyFlag { loop200 with inputs := [.start 3] } = true) ∧
    (currentInput (given (.start 20) (ramp 12)) = .start 20 ∧ decode decidedParams 20 = .ok (.h17_32 20) ∧
      busyFlag (given (.start 20) (ramp 12)) = false ∧ ¬ Readable 20 (given (.start 20) (ramp 12))) ∧
    (currentInput (given (.start (2 ^ 64)) []) = .start (2 ^ 64) ∧
      decode decidedParams (2 ^ 64) = .error .lenRange) :=
  ⟨⟨rfl, rfl, by decide⟩, ⟨rfl, rfl, by decide, rfl, readable_ready (n := 65) (bs := ramp 65) (by decide)⟩,
    ⟨rfl, rfl, rfl⟩, ⟨rfl, rfl, rfl, by simp [Readable, given, ready, ramp]⟩, rfl, rfl⟩

theorem test_witness_PlacedWordIsRunNext :
    (decode State.reset.params 64 = .ok (.h33_64 64) ∧ 64 ≤ 64) ∧
    (decode (ready (ramp 65)).params 65 = .ok (.h65p 65) ∧ 65 ≤ 65 ∧ Readable 65 (ready (ramp 65))) :=
  ⟨⟨rfl, by decide⟩, rfl, by decide, readable_ready (by decide)⟩

theorem test_witness_QuietStepFollowsThePhase :
    (currentInput State.reset = .quiet ∧ (State.reset.phase = .idle ∨ State.reset.phase = .done)) ∧
    (currentInput seeded65 = .quiet ∧ (seeded65.phase = .seeded ∨ seeded65.phase = .loop)) ∧
    (currentInput looped65 = .quiet ∧ looped65.phase = .looped) := ⟨⟨rfl, .inl rfl⟩, ⟨rfl, .inl rfl⟩, rfl, rfl⟩

theorem test_witness_ResetAbandonsTheCall : currentInput { loop200 with inputs := [.reset] } = .reset := rfl

/-- Each of the host's actions, with the unit idle or in DONE as its clause says. -/
theorem test_witness_HostActions :
    (currentInput (given (.place (ramp 3)) []) = .place (ramp 3) ∧ busyFlag (given (.place (ramp 3)) []) = false) ∧
    (currentInput (given (.write 0 1) []) = .write 0 1 ∧ busyFlag (given (.write 0 1) []) = false) ∧
    currentInput (given .readBusy []) = .readBusy ∧ currentInput (given .readDone []) = .readDone ∧
    (currentInput { looped65 with phase := .done, inputs := [.readResult] } = .readResult ∧
      doneFlag { looped65 with phase := .done, inputs := [.readResult] } = true) ∧
    (currentInput (given .readResult []) = .readResult ∧ doneFlag (given .readResult []) = false) :=
  ⟨⟨rfl, rfl⟩, ⟨rfl, rfl⟩, rfl, rfl, ⟨rfl, rfl⟩, rfl, rfl⟩

/-- During program P4: the last byte below the length, the first beyond it, and another buffer; and a state of length 0
that no run reaches. -/
theorem test_witness_TheBufferDuringACall :
    busyFlag loop200 = true ∧
    (currentInput { loop200 with inputs := [.write 199 199] } = .write 199 199 ∧ 199 < loop200.len.toNat) ∧
    (currentInput { loop200 with inputs := [.write 200 0] } = .write 200 0 ∧ loop200.len.toNat ≤ 200) ∧
    (currentInput { loop200 with inputs := [.place []] } = .place [] ∧ loop200.len ≠ 0) ∧
    (busyFlag { loop200 with len := 0, inputs := [.place []] } = true ∧
      currentInput { loop200 with len := 0, inputs := [.place []] } = .place []) :=
  ⟨rfl, ⟨rfl, by decide⟩, ⟨rfl, by decide⟩, ⟨rfl, by decide⟩, rfl, rfl⟩

/-- A quiet step in a call, a START and a change of the buffer, each from a state that meets the invariant. -/
theorem test_witness_EveryStepKeepsTheInvariant :
    (Inv seeded65 ∧ ∃ t, step seeded65 = .next t) ∧
    (Inv { ready (ramp 65) with inputs := [.start 65] } ∧
      ∃ t, step { ready (ramp 65) with inputs := [.start 65] } = .next t) :=
  ⟨⟨inv_seeded65, exists_of_isNext (by decide +kernel)⟩,
    ⟨(inv_ready _).bufWf, (inv_ready []).lenFit, (inv_ready []).posFit, (inv_ready []).remFit, fun h => by cases h⟩,
    exists_of_isNext (by decide +kernel)⟩

theorem test_witness_EveryOperationKeepsTheInvariant :
    (Inv (ready (ramp 65)) ∧ ∃ t, exec (.h65p 65) (ready (ramp 65)) = .next t) ∧
    (Inv loop200 ∧ ∃ t, exec .h65pChunk loop200 = .next t) :=
  ⟨⟨inv_ready _, exists_of_isNext (by decide +kernel)⟩, inv_loop200, exists_of_isNext (by decide +kernel)⟩

theorem test_witness_ACallInProgressNeverSticks :
    (Inv seeded65 ∧ busyFlag seeded65 = true ∧ currentInput seeded65 = .quiet) ∧
    (Inv looped65 ∧ busyFlag looped65 = true ∧ currentInput looped65 = .quiet) :=
  ⟨⟨inv_seeded65, rfl, rfl⟩, inv_looped65, rfl, rfl⟩

theorem test_witness_ACallInProgressEnds :
    (Inv loop200 ∧ busyFlag loop200 = true ∧ loop200.inputs = []) ∧
    (Inv looped65 ∧ busyFlag looped65 = true ∧ looped65.inputs = []) :=
  ⟨⟨inv_loop200, rfl, rfl⟩, inv_looped65, rfl, rfl⟩

theorem test_witness_SequencedCallIsThePublicFunction :
    (given (.start 64) (ramp 64)).inputs = [.start 64] ∧ (given (.start 65) (ramp 65)).inputs = [.start 65] := ⟨rfl, rfl⟩

theorem test_witness_StepKeepsParametersAndBuffer :
    (∃ t, step seeded65 = .next t) ∧ (∀ bs, currentInput seeded65 ≠ .place bs) ∧
    (∀ a b, currentInput seeded65 ≠ .write a b) :=
  ⟨exists_of_isNext (by decide +kernel), fun _ h => (by cases h), fun _ _ h => (by cases h)⟩

end Sys2Proof.Tests
end

section
/-! What an operation that answers can do, said once for all 23 operations, and what that leaves unchanged
(spec/10_state.md R27, spec/20_memory.md R40). -/

namespace Sys2Proof.Machine

/-! ### The ways an operation answers -/

/-- The ways `exec i s` can answer `t`: a value is delivered, a band of one step runs, the large engine runs as a whole,
or one of its three steps runs. `exec_next` ties it to `exec`. -/
inductive Answers (i : Instr) (s t : State) : Prop where
  | delivered (v : Value) (ht : t = deliver v s)
  | oneStep (lo hi len : Nat) (value : State → Except Refusal Word)
      (op : i.isCall = true ∨ i = .hash64 len ∨ i = .small0to16 len) (run : oneStepCall lo hi value len s = .next t)
  | large (len : Nat) (op : i = .h65p len ∨ i = .hash64 len ∧ 65 ≤ len) (run : execH65p len s = .next t)
  | seed (op : i = .h65pSeed) (run : seedState s = .ok t)
  | chunk (op : i = .h65pChunk) (run : chunkState s = .ok t)
  | final (op : i = .h65pFinal) (run : finalState s = .ok t)

theorem Answers.of_answer {i : Instr} {s t : State} {v : Except Refusal Value} (h : answer v s = .next t) :
    Answers i s t := by
  obtain ⟨x, -, ht⟩ := answer_next h
  exact .delivered x ht

/-- The priority chain of R80 runs one of the four bands. -/
theorem execSmall0to16_next {len : Nat} {s t : State} (h : execSmall0to16 len s = .next t) :
    ∃ lo hi value, oneStepCall lo hi value len s = .next t := by
  simp only [execSmall0to16] at h
  split at h
  · cases h
  · split at h
    · exact ⟨_, _, _, h⟩
    · split at h
      · exact ⟨_, _, _, h⟩
      · split at h
        · exact ⟨_, _, _, h⟩
        · exact ⟨_, _, _, h⟩

/-- HASH64 runs a band of one step, or from length 65 up the large engine (R103). -/
theorem execHash64_next {len : Nat} {s t : State} (h : execHash64 len s = .next t) :
    (∃ lo hi value, oneStepCall lo hi value len s = .next t) ∨ (65 ≤ len ∧ execH65p len s = .next t) := by
  simp only [execHash64] at h
  split at h
  · exact .inl (execSmall0to16_next h)
  · split at h
    · exact .inl ⟨_, _, _, h⟩
    · split at h
      · exact .inl ⟨_, _, _, h⟩
      · exact .inr ⟨by omega, h⟩

/-- A rotate that answers has an amount below 64 and delivers the rotated word (R73). -/
theorem execRotr_next {v : Word} {k : Nat} {s t : State} (h : execRotr v k s = .next t) :
    k < 64 ∧ t = deliver (.u64 (rotr v k)) s := by
  simp only [execRotr] at h
  split at h
  · next hk =>
    obtain ⟨x, hx, rfl⟩ := answer_next h
    injection hx with hx
    exact ⟨hk, by rw [hx]⟩
  · cases h

/-- Every operation that answers does so in one of the ways of `Answers`. -/
theorem exec_next {i : Instr} {s t : State} (h : exec i s = .next t) : Answers i s t := by
  cases i with
  | h0 len => exact .oneStep 0 0 len h0Value (.inl rfl) h
  | h1_3 | h4_7 | h8_16 | h17_32 | h33_64 => exact .oneStep _ _ _ _ (.inl rfl) h
  | h65p len => exact .large len (.inl rfl) h
  | hash64 len =>
    obtain ⟨lo, hi, value, hr⟩ | ⟨hl, hr⟩ := execHash64_next h
    · exact .oneStep lo hi len value (.inr (.inl rfl)) hr
    · exact .large len (.inr ⟨rfl, hl⟩) hr
  | small0to16 len =>
    obtain ⟨lo, hi, value, hr⟩ := execSmall0to16_next h
    exact .oneStep lo hi len value (.inr (.inr rfl)) hr
  | h65pSeed => exact .seed rfl (toOutcome_next.mp h)
  | h65pChunk => exact .chunk rfl (toOutcome_next.mp h)
  | h65pFinal => exact .final rfl (toOutcome_next.mp h)
  | rotr v k => exact .delivered _ (execRotr_next h).2
  | fetch64 | fetch32 | fetch8 | loadBytes | weakHash32M => exact .of_answer h
  | shiftMix | hashLen16M | hashLen16 | weakHash32 | bswap64 => exact .delivered _ (Host.Outcome.next.inj h).symm

/-! ### What every operation leaves unchanged -/

/-- H65P writes LEN, the accumulators, POS, REM, RESULT and PHASE, and nothing else (R27). -/
theorem execH65p_frame {len : Nat} {s t : State} (h : execH65p len s = .next t) :
    t = { s with
      len := t.len, acc := t.acc, pos := t.pos, rem := t.rem, result := t.result, phase := .done } := by
  obtain ⟨s0, s1, s2, h0, h1, h2, h3⟩ := execH65p_cases h
  rw [finalState_frame h3, chunkLoop_frame h2, seedState_frame h1, beginCall_frame h0]

/-- An operation writes registers alone: BUF, the parameters and what the host does next are as before (R26, R40). -/
theorem exec_frame {i : Instr} {s t : State} (h : exec i s = .next t) :
    t = { s with
      len := t.len, acc := t.acc, pos := t.pos, rem := t.rem, result := t.result, phase := t.phase, ok := t.ok } := by
  cases exec_next h with
  | delivered v ht => rw [ht]; rfl
  | oneStep lo hi len value _ hr =>
    obtain ⟨v, ht⟩ := oneStepCall_frame hr
    rw [ht]
  | large len _ hr => rw [execH65p_frame hr]
  | seed _ hr => rw [seedState_frame hr]
  | chunk _ hr => rw [chunkState_frame hr]
  | final _ hr => rw [finalState_frame hr]

/-- Settles O40: by `exec_frame`, an operation writes registers alone. -/
theorem noOperationWritesMemory : Obligations.NoOperationWritesMemory := by
  unfold Obligations.NoOperationWritesMemory
  intro i s t h
  rw [exec_frame h]
  exact ⟨fun _ => rfl, rfl, rfl, rfl⟩

end Sys2Proof.Machine
end

section
/-! The decode, one equation for each row of its two tables (spec/30_encoding.md R54, R55). -/

namespace Sys2Proof

/-! ### Second level, inside the tier 0 to 16 (R55) -/

@[simp] theorem decodeSmall_zero : decodeSmall 0 = .h0 0 := rfl

theorem decodeSmall_of_1_to_3 {len : Nat} (hl : 1 ≤ len) (hh : len ≤ 3) : decodeSmall len = .h1_3 len := by
  rw [decodeSmall, if_neg (by omega), if_pos hh]

theorem decodeSmall_of_4_to_7 {len : Nat} (hl : 4 ≤ len) (hh : len ≤ 7) : decodeSmall len = .h4_7 len := by
  rw [decodeSmall, if_neg (by omega), if_neg (by omega), if_pos hh]

/-- The last row needs no upper end: the first level sends no length above 16 here. -/
theorem decodeSmall_of_8_le {len : Nat} (hl : 8 ≤ len) : decodeSmall len = .h8_16 len := by
  rw [decodeSmall, if_neg (by omega), if_neg (by omega), if_neg (by omega)]

/-! ### First level, the dispatcher's four routes (R54) -/

theorem decode_of_le_16 {p : Params} {len : Nat} (hf : len < 2 ^ p.lenW) (hh : len ≤ 16) :
    decode p len = .ok (decodeSmall len) := by
  rw [decode, if_neg (Nat.not_le.mpr hf), if_pos hh]

theorem decode_of_17_to_32 {p : Params} {len : Nat} (hf : len < 2 ^ p.lenW) (hl : 17 ≤ len) (hh : len ≤ 32) :
    decode p len = .ok (.h17_32 len) := by
  rw [decode, if_neg (Nat.not_le.mpr hf), if_neg (by omega), if_pos hh]

theorem decode_of_33_to_64 {p : Params} {len : Nat} (hf : len < 2 ^ p.lenW) (hl : 33 ≤ len) (hh : len ≤ 64) :
    decode p len = .ok (.h33_64 len) := by
  rw [decode, if_neg (Nat.not_le.mpr hf), if_neg (by omega), if_neg (by omega), if_pos hh]

theorem decode_of_65_le {p : Params} {len : Nat} (hf : len < 2 ^ p.lenW) (hl : 65 ≤ len) :
    decode p len = .ok (.h65p len) := by
  rw [decode, if_neg (Nat.not_le.mpr hf), if_neg (by omega), if_neg (by omega), if_neg (by omega)]

/-- Settles O1: up to 16 the first level hands the length to the second, whose four rows are the equations of
`decodeSmall`; above 16 each route of the first level is one operation. -/
theorem lengthSelectsTheOperation : Obligations.LengthSelectsTheOperation := by
  unfold Obligations.LengthSelectsTheOperation
  intro p len hf
  refine ⟨fun h0 => ?h0, fun hl hh => ?h1_3, fun hl hh => ?h4_7, fun hl hh => ?h8_16,
    decode_of_17_to_32 hf, decode_of_33_to_64 hf, decode_of_65_le hf⟩
  case h0 =>
    subst h0
    rw [decode_of_le_16 hf (Nat.zero_le 16), decodeSmall_zero]
  case h1_3 => rw [decode_of_le_16 hf (by omega), decodeSmall_of_1_to_3 hl hh]
  case h4_7 => rw [decode_of_le_16 hf (by omega), decodeSmall_of_4_to_7 hl hh]
  case h8_16 => rw [decode_of_le_16 hf hh, decodeSmall_of_8_le hl]

end Sys2Proof
end

section
/-! The tier of lengths 0 to 16: SMALL0TO16 is the operation that R55 selects, and its row for the empty input
(spec/42_small_hash_0to16.md R80, R81). -/

namespace Sys2Proof.Machine

/-! ### The beginning of a call and its band -/

/-- Inside a band the band's ends play no part: two bands that both hold the length begin, or refuse, the call alike. -/
theorem beginCall_eq_of_mem_bands {lo hi lo' hi' len : Nat} {s : State} (hl : lo ≤ len) (hh : len ≤ hi)
    (hl' : lo' ≤ len) (hh' : len ≤ hi') : beginCall lo hi len s = beginCall lo' hi' len s := by
  have hin : ¬ (len < lo ∨ hi < len) := by omega
  have hin' : ¬ (len < lo' ∨ hi' < len) := by omega
  simp only [beginCall, checkCall, if_neg hin, if_neg hin']

theorem beginCall_bandMismatch {lo hi len : Nat} {s : State} (hf : len < 2 ^ s.params.lenW) (hb : busyFlag s = false)
    (hout : len < lo ∨ hi < len) : beginCall lo hi len s = .error .bandMismatch := by
  simp [beginCall, checkCall, Nat.not_le.mpr hf, hb, hout]

/-! ### SMALL0TO16 (R80) -/

theorem execSmall0to16_refused {len : Nat} {s : State} {r : Refusal} (h : beginCall 0 16 len s = .error r) :
    execSmall0to16 len s = .refused r := by
  simp [execSmall0to16, h]

/-- Once the call has begun, the chain of R80, read from the longest band down, ends where the table of R55, read from
the shortest band up, does. -/
theorem execSmall0to16_of_begun {len : Nat} {s t : State} (h : beginCall 0 16 len s = .ok t) :
    execSmall0to16 len s = exec (decodeSmall len) s := by
  simp only [execSmall0to16, h]
  split
  · next h8 => rw [decodeSmall_of_8_le h8, exec_h8_16]
  · split
    · next h4 => rw [decodeSmall_of_4_to_7 h4 (by omega), exec_h4_7]
    · split
      · next h1 => rw [decodeSmall_of_1_to_3 h1 (by omega), exec_h1_3]
      · next h0 =>
        obtain rfl : len = 0 := by omega
        rw [decodeSmall_zero, exec_h0]

/-- The operation R55 selects for a length of the tier is a call of one step whose band holds the length. -/
theorem exec_decodeSmall_is_oneStepCall {len : Nat} (hh : len ≤ 16) (s : State) :
    ∃ lo hi value, lo ≤ len ∧ len ≤ hi ∧ exec (decodeSmall len) s = oneStepCall lo hi value len s := by
  obtain rfl | ⟨hl, hu⟩ | ⟨hl, hu⟩ | hl : len = 0 ∨ (1 ≤ len ∧ len ≤ 3) ∨ (4 ≤ len ∧ len ≤ 7) ∨ 8 ≤ len := by omega
  · exact ⟨0, 0, h0Value, le_rfl, le_rfl, rfl⟩
  · exact ⟨1, 3, h1_3Value, hl, hu, by rw [decodeSmall_of_1_to_3 hl hu]; rfl⟩
  · exact ⟨4, 7, h4_7Value, hl, hu, by rw [decodeSmall_of_4_to_7 hl hu]; rfl⟩
  · exact ⟨8, 16, h8_16Value, hl, hh, by rw [decodeSmall_of_8_le hl]; rfl⟩

/-- SMALL0TO16 is the operation R55 selects, in every state: the check of the tier refuses a call exactly as the
check of the selected band does. -/
theorem execSmall0to16_eq_exec_decodeSmall {len : Nat} (hh : len ≤ 16) (s : State) :
    execSmall0to16 len s = exec (decodeSmall len) s := by
  cases hc : beginCall 0 16 len s with
  | ok t => exact execSmall0to16_of_begun hc
  | error r =>
    obtain ⟨lo, hi, value, hl, hu, hrun⟩ := exec_decodeSmall_is_oneStepCall hh s
    have hband : beginCall lo hi len s = .error r := by
      rw [beginCall_eq_of_mem_bands hl hu (Nat.zero_le len) hh, hc]
    rw [execSmall0to16_refused hc, hrun, oneStepCall_refused hband]

/-- Settles O27: up to 16, SMALL0TO16 is the operation of `decodeSmall`, one row for each band; above 16 the check of
the tier refuses the length. -/
theorem smallTierSelectsItsBand : Obligations.SmallTierSelectsItsBand := by
  unfold Obligations.SmallTierSelectsItsBand
  intro s len
  rw [exec_small0to16]
  refine ⟨fun hl hh => ?h8_16, fun hl hh => ?h4_7, fun hl hh => ?h1_3, fun hz => ?h0, fun hl hf hb => ?above⟩
  case h8_16 => rw [execSmall0to16_eq_exec_decodeSmall hh, decodeSmall_of_8_le hl]
  case h4_7 => rw [execSmall0to16_eq_exec_decodeSmall (by omega), decodeSmall_of_4_to_7 hl hh]
  case h1_3 => rw [execSmall0to16_eq_exec_decodeSmall (by omega), decodeSmall_of_1_to_3 hl hh]
  case h0 =>
    subst hz
    rw [execSmall0to16_eq_exec_decodeSmall (Nat.zero_le 16), decodeSmall_zero]
  case above => exact execSmall0to16_refused (beginCall_bandMismatch hf hb (.inr hl))

/-! ### The empty input (R81) -/

/-- No other length selects H0: each other row of R54 and R55 has an operation of its own, and a length that does not
fit LEN_W bits has none (R57). -/
theorem decode_eq_h0_iff (p : Params) (len : Nat) : decode p len = .ok (.h0 len) ↔ len = 0 := by
  constructor
  · intro h
    by_contra hne
    simp only [decode, decodeSmall, if_neg hne] at h
    split_ifs at h <;> cases h
  · rintro rfl
    rw [decode_of_le_16 (lt_two_pow_lenW (by omega)) (Nat.zero_le 16), decodeSmall_zero]

theorem execHash64_of_le_16 {len : Nat} (hh : len ≤ 16) (s : State) : execHash64 len s = execSmall0to16 len s := by
  rw [execHash64, if_pos hh]

/-- A call of no byte needs no buffer, and its value is the constant K2. -/
theorem execH0_zero {s : State} (hb : busyFlag s = false) :
    execH0 0 s = .next { s with len := 0, result := K2, phase := .done } :=
  oneStepCall_eq (lt_two_pow_lenW (by omega)) hb le_rfl le_rfl (Nat.zero_le _) rfl

/-- Settles O21: H0 is a call of one step that needs no byte, and HASH64 routes the length 0 to it through
SMALL0TO16. -/
theorem emptyInputHashesToK2 : Obligations.EmptyInputHashesToK2 := by
  unfold Obligations.EmptyInputHashesToK2
  intro s
  refine ⟨decode_eq_h0_iff s.params, fun hb => ?completes⟩
  have hroute : exec (.hash64 0) s = exec (.h0 0) s := by
    rw [exec_hash64, execHash64_of_le_16 (Nat.zero_le 16), execSmall0to16_eq_exec_decodeSmall (Nat.zero_le 16),
      decodeSmall_zero]
  rw [hroute]
  exact ⟨execH0_zero hb, execH0_zero hb⟩

end Sys2Proof.Machine
end

section
/-! Within the contract every call completes (spec/46_dispatcher.md R104): in a readable buffer no load of a band or of
the large engine is refused, and the chunk loop ends in LOOPED. -/

namespace Sys2Proof.Machine

/-! ### The routes of HASH64 (R103) -/

/-- The six circuits of one step, each with the two ends of its band (R81, R82, R83, R84, R87, R90).
`execHash64_eq_band` ties them to HASH64. -/
inductive Band : Nat → Nat → (State → Except Refusal Word) → Prop where
  | h0     : Band 0 0 h0Value
  | h1_3   : Band 1 3 h1_3Value
  | h4_7   : Band 4 7 h4_7Value
  | h8_16  : Band 8 16 h8_16Value
  | h17_32 : Band 17 32 h17_32Value
  | h33_64 : Band 33 64 h33_64Value

/-- A length of the tier 0 to 16 has its band in R55. -/
theorem execHash64_of_le_16_eq_exec_decodeSmall {len : Nat} (hh : len ≤ 16) (s : State) :
    execHash64 len s = exec (decodeSmall len) s := by
  rw [execHash64_of_le_16 hh, execSmall0to16_eq_exec_decodeSmall hh]

/-- Up to 64 HASH64 is, in every state, the one-step call of the band that holds the length. -/
theorem execHash64_eq_band {len : Nat} (h : len ≤ 64) :
    ∃ lo hi value, Band lo hi value ∧ lo ≤ len ∧ len ≤ hi ∧ ∀ s, execHash64 len s = oneStepCall lo hi value len s := by
  by_cases h16 : len ≤ 16
  · simp only [execHash64_of_le_16_eq_exec_decodeSmall h16]
    obtain rfl | ⟨hl, hh⟩ | ⟨hl, hh⟩ | hl : len = 0 ∨ (1 ≤ len ∧ len ≤ 3) ∨ (4 ≤ len ∧ len ≤ 7) ∨ 8 ≤ len := by omega
    · exact ⟨0, 0, _, .h0, le_rfl, le_rfl, fun _ => rfl⟩
    · exact ⟨1, 3, _, .h1_3, hl, hh, fun _ => by rw [decodeSmall_of_1_to_3 hl hh]; rfl⟩
    · exact ⟨4, 7, _, .h4_7, hl, hh, fun _ => by rw [decodeSmall_of_4_to_7 hl hh]; rfl⟩
    · exact ⟨8, 16, _, .h8_16, hl, h16, fun _ => by rw [decodeSmall_of_8_le hl]; rfl⟩
  · by_cases h32 : len ≤ 32
    · exact ⟨17, 32, _, .h17_32, by omega, h32, fun _ => by rw [execHash64, if_neg h16, if_pos h32]; rfl⟩
    · exact ⟨33, 64, _, .h33_64, by omega, h, fun _ => by rw [execHash64, if_neg h16, if_neg h32, if_pos h]; rfl⟩

theorem execHash64_of_65_le {len : Nat} (h : 65 ≤ len) (s : State) : execHash64 len s = execH65p len s := by
  rw [execHash64, if_neg (by omega), if_neg (by omega), if_neg (by omega)]

/-! ### The bands -/

/-- The circuit of a band has a value for every length of its band: each of its loads lies inside the buffer (R43). -/
theorem Band.value_ok {lo hi : Nat} {value : State → Except Refusal Word} {s : State} (b : Band lo hi value)
    (hl : lo ≤ s.len.toNat) (hr : Readable s.len.toNat s) : ∃ v, value s = .ok v := by
  unfold Readable at hr
  cases b with
  | h0 => exact ⟨K2, rfl⟩
  | h1_3 => simp (disch := omega) only [h1_3Value, fetch8_eq, ok_bind]; exact ⟨_, rfl⟩
  | h4_7 => simp (disch := omega) only [h4_7Value, fetch32_eq, ok_bind]; exact ⟨_, rfl⟩
  | h8_16 => simp (disch := omega) only [h8_16Value, fetch64_eq, ok_bind]; exact ⟨_, rfl⟩
  | h17_32 => simp (disch := omega) only [h17_32Value, fetch64_eq, ok_bind]; exact ⟨_, rfl⟩
  | h33_64 => simp (disch := omega) only [h33_64Value, fetch64_eq, ok_bind]; exact ⟨_, rfl⟩

theorem Band.oneStepCall_completes {lo hi len : Nat} {value : State → Except Refusal Word} {s : State}
    (b : Band lo hi value) (hb : busyFlag s = false) (hf : len < 2 ^ s.params.lenW) (hr : Readable len s) (hl : lo ≤ len)
    (hh : len ≤ hi) : ∃ t, oneStepCall lo hi value len s = .next t := by
  have hlen : (BitVec.ofNat 64 len).toNat = len := toNat_ofNat_len hf
  obtain ⟨v, hv⟩ := b.value_ok (s := { s with len := BitVec.ofNat 64 len }) (hl.trans_eq hlen.symm)
    (hlen.symm ▸ hr)
  exact ⟨_, oneStepCall_eq hf hb hl hh hr hv⟩

/-! ### The large engine -/

theorem seedAcc_ok {s : State} (hl : 65 ≤ s.len.toNat) (hr : Readable s.len.toNat s) : ∃ a, seedAcc s = .ok a := by
  unfold Readable at hr
  simp (disch := omega) only [seedAcc, fetch64_eq, weakHash32M_eq, ok_bind]
  exact ⟨_, rfl⟩

theorem chunkAcc_ok {s : State} {p : Nat} (r : Acc) (hp : p + 64 ≤ s.len.toNat) (hr : Readable s.len.toNat s) :
    ∃ a, chunkAcc s p r = .ok a := by
  unfold Readable at hr
  simp (disch := omega) only [chunkAcc, fetch64_eq, weakHash32M_eq, ok_bind]
  exact ⟨_, rfl⟩

/-- What holds before the last `n` chunk steps of a call: REM counts them, they lie inside the readable buffer from
POS up, and PHASE says whether there is one (R96). -/
structure ChunksLeft (n : Nat) (s : State) : Prop where
  readable : Readable s.len.toNat s
  rem      : s.rem.toNat = 64 * n
  inside   : s.pos.toNat + 64 * n ≤ s.len.toNat
  enabled  : n ≠ 0 → s.phase = .seeded ∨ s.phase = .loop
  ended    : n = 0 → s.phase = .looped

theorem le_maxLen {len : Nat} {s : State} (hf : len < 2 ^ s.params.lenW) : len ≤ maxLen s := Nat.le_sub_one_of_lt hf

theorem seedState_completes {s : State} (hb : busyFlag s = false) (hl : 65 ≤ s.len.toNat)
    (hf : s.len.toNat < 2 ^ s.params.lenW) (hr : Readable s.len.toNat s) :
    ∃ t, seedState s = .ok t ∧ ChunksLeft (nchunks s.params.chunkMode s.len.toNat) t := by
  obtain ⟨a, ha⟩ := seedAcc_ok hl hr
  obtain ⟨hpos, hle⟩ := nchunks_bounds (mode := s.params.chunkMode) hl
  have hc : checkCall 65 (maxLen s) s.len.toNat s = .ok () := checkCall_ok hb hl (le_maxLen hf) hr
  refine ⟨_, by simp only [seedState, hc, ha, ok_bind]; rfl, ?_⟩
  exact {
    readable := hr
    rem := toNat_ofNat_len (hle.trans_lt hf)
    inside := by simpa using hle
    enabled := fun _ => .inl rfl
    ended := fun h => by omega }

theorem chunkState_completes {n : Nat} {s : State} (h : ChunksLeft (n + 1) s) :
    ∃ t, chunkState s = .ok t ∧ ChunksLeft n t := by
  have hrem := h.rem
  have hin := h.inside
  have hlt := s.len.isLt
  obtain ⟨a, ha⟩ := chunkAcc_ok s.acc (p := s.pos.toNat) (by omega) h.readable
  have he : chunkEnabled s = true := (chunkEnabled_iff s).mpr ⟨h.enabled n.succ_ne_zero, by omega⟩
  refine ⟨_, by simp only [chunkState, he, if_true, ha, ok_bind]; rfl, ?_⟩
  exact {
    readable := h.readable
    rem := by simp only [BitVec.toNat_ofNat]; omega
    inside := by simp only [BitVec.toNat_ofNat]; omega
    enabled := fun hn => .inr (if_neg (by omega))
    ended := fun hn => if_pos (by omega) }

theorem chunkLoop_succ_ok {n : Nat} {s t : State} :
    chunkLoop (n + 1) s = .ok t ↔ ∃ u, chunkState s = .ok u ∧ chunkLoop n u = .ok t := by
  cases hc : chunkState s <;> simp [chunkLoop, hc]

/-- The chunk loop takes the chunks that are left and ends in LOOPED (R100). -/
theorem chunkLoop_completes : ∀ {n : Nat} {s : State}, ChunksLeft n s → ∃ t, chunkLoop n s = .ok t ∧ t.phase = .looped
  | 0, s, h     => ⟨s, rfl, h.ended rfl⟩
  | n + 1, s, h => by
    obtain ⟨u, hu, hleft⟩ := chunkState_completes h
    obtain ⟨t, ht, hp⟩ := chunkLoop_completes hleft
    exact ⟨t, chunkLoop_succ_ok.mpr ⟨u, hu, ht⟩, hp⟩

theorem finalState_of_looped {s : State} (h : s.phase = .looped) : finalState s = .ok (endCall (finalMix s.acc) s) := by
  simp [finalState, h]

theorem execH65p_completes {len : Nat} {s : State} (hb : busyFlag s = false) (hf : len < 2 ^ s.params.lenW)
    (hr : Readable len s) (hl : 65 ≤ len) : ∃ t, execH65p len s = .next t := by
  have hlen : (BitVec.ofNat 64 len).toNat = len := toNat_ofNat_len hf
  have hbegin := beginCall_ok hf hb hl (le_maxLen hf) hr
  obtain ⟨s1, hseed, hleft⟩ := seedState_completes (s := { s with len := BitVec.ofNat 64 len }) hb
    (hl.trans_eq hlen.symm) (hlen.trans_lt hf) (hlen.symm ▸ hr)
  simp only [hlen] at hleft
  obtain ⟨s2, hloop, hp⟩ := chunkLoop_completes hleft
  refine ⟨endCall (finalMix s2.acc) s2, ?_⟩
  simp only [execH65p, startSeed, hbegin, hseed, hloop, finalState_of_looped hp, ok_bind, toOutcome]

/-! ### The public function -/

/-- Within the contract HASH64 completes for every length (R104). -/
theorem execHash64_completes {len : Nat} {s : State} (hb : busyFlag s = false) (hf : len < 2 ^ s.params.lenW)
    (hr : Readable len s) : ∃ t, execHash64 len s = .next t := by
  by_cases h : len ≤ 64
  · obtain ⟨lo, hi, value, band, hl, hh, hroute⟩ := execHash64_eq_band h
    rw [hroute]
    exact band.oneStepCall_completes hb hf hr hl hh
  · rw [execHash64_of_65_le (by omega)]
    exact execH65p_completes hb hf hr (by omega)

end Sys2Proof.Machine
end

section
/-! Purity (spec/46_dispatcher.md R109): two units that were given the same bytes and the same length load the same
words, and so go through every band and through the large engine alike. -/

namespace Sys2Proof.Machine

/-! ### Two units with the same input -/

/-- Two units that can be given a call of `len` bytes alike, whatever their other registers and LEN_W hold: the bytes
below `len` are the same, and so are the two parameters that have a part in a value (R84, R95). -/
structure SameBytes (len : Nat) (s₁ s₂ : State) : Prop where
  bytes     : ∀ a < len, readByte a s₁.buf = readByte a s₂.buf
  chunkMode : s₁.params.chunkMode = s₂.params.chunkMode
  aBias     : s₁.params.aBias = s₂.params.aBias

/-- Two units that have latched one length over the same bytes. -/
structure SameInput (s₁ s₂ : State) : Prop extends SameBytes s₂.len.toNat s₁ s₂ where
  len : s₁.len = s₂.len

namespace SameInput

variable {s₁ s₂ : State} (h : SameInput s₁ s₂)
include h

theorem loadNat_eq (off n : Nat) : loadNat s₁ off n = loadNat s₂ off n :=
  calc loadNat s₁ off n
    _ = loadNat { s₂ with buf := s₁.buf } off n := by simp only [loadNat, memRead, h.len]
    _ = loadNat s₂ off n := loadNat_congr h.bytes off n

theorem fetch64_eq (off : Nat) : fetch64 s₁ off = fetch64 s₂ off := by
  simp only [fetch64, h.loadNat_eq]

theorem fetch32_eq (off : Nat) : fetch32 s₁ off = fetch32 s₂ off := by
  simp only [fetch32, h.loadNat_eq]

theorem fetch8_eq (off : Nat) : fetch8 s₁ off = fetch8 s₂ off := by
  simp only [fetch8, h.loadNat_eq]

theorem weakHash32M_eq (off : Nat) (a b : Word) : weakHash32M s₁ off a b = weakHash32M s₂ off a b := by
  simp only [weakHash32M, h.fetch64_eq]

theorem seedAcc_eq : seedAcc s₁ = seedAcc s₂ := by
  simp only [seedAcc, h.fetch64_eq, h.weakHash32M_eq, h.len]

theorem chunkAcc_eq (p : Nat) (r : Acc) : chunkAcc s₁ p r = chunkAcc s₂ p r := by
  simp only [chunkAcc, h.fetch64_eq, h.weakHash32M_eq]

theorem bandValue_eq {lo hi : Nat} {value : State → Except Refusal Word} (b : Band lo hi value) : value s₁ = value s₂ := by
  cases b with
  | h0 => rfl
  | h1_3 => simp only [h1_3Value, h.fetch8_eq, h.len]
  | h4_7 => simp only [h4_7Value, h.fetch32_eq, h.len]
  | h8_16 => simp only [h8_16Value, h.fetch64_eq, h.len, h.aBias]
  | h17_32 => simp only [h17_32Value, h.fetch64_eq, h.len]
  | h33_64 => simp only [h33_64Value, h.fetch64_eq, h.len]

end SameInput

/-- START latches the length, and the two units have the same input (R107). -/
theorem SameBytes.after_beginCall {lo₁ hi₁ lo₂ hi₂ len : Nat} {s₁ s₂ t₁ t₂ : State} (h : SameBytes len s₁ s₂)
    (h₁ : beginCall lo₁ hi₁ len s₁ = .ok t₁) (h₂ : beginCall lo₂ hi₂ len s₂ = .ok t₂) : SameInput t₁ t₂ := by
  obtain ⟨-, -, -, -, -, rfl⟩ := beginCall_cases h₁
  obtain ⟨hf, -, -, -, -, rfl⟩ := beginCall_cases h₂
  exact { h with len := rfl, bytes := fun a ha => h.bytes a (ha.trans_eq (toNat_ofNat_len hf)) }

/-- A call of one step ends with the same RESULT in both units. -/
theorem SameBytes.oneStepCall_result {lo hi len : Nat} {value : State → Except Refusal Word} {s₁ s₂ t₁ t₂ : State}
    (h : SameBytes len s₁ s₂) (b : Band lo hi value) (h₁ : oneStepCall lo hi value len s₁ = .next t₁)
    (h₂ : oneStepCall lo hi value len s₂ = .next t₂) : t₁.result = t₂.result := by
  obtain ⟨u₁, v₁, hu₁, hv₁, rfl⟩ := oneStepCall_next h₁
  obtain ⟨u₂, v₂, hu₂, hv₂, rfl⟩ := oneStepCall_next h₂
  rw [(h.after_beginCall hu₁ hu₂).bandValue_eq b, hv₂] at hv₁
  exact (Except.ok.inj hv₁).symm

/-! ### The large engine -/

/-- Two units with the same input stand at the same place of the chunk loop. REM and PHASE have no part in a value. -/
structure SameProgress (s₁ s₂ : State) : Prop extends SameInput s₁ s₂ where
  acc : s₁.acc = s₂.acc
  pos : s₁.pos = s₂.pos

/-- The seed step overwrites what the accumulators and POS held before (R94). -/
theorem SameInput.after_seedState {s₁ s₂ t₁ t₂ : State} (h : SameInput s₁ s₂) (h₁ : seedState s₁ = .ok t₁)
    (h₂ : seedState s₂ = .ok t₂) : SameProgress t₁ t₂ := by
  obtain ⟨-, -, -, a₁, ha₁, rfl⟩ := seedState_cases h₁
  obtain ⟨-, -, -, a₂, ha₂, rfl⟩ := seedState_cases h₂
  rw [h.seedAcc_eq, ha₂] at ha₁
  exact { h with acc := (Except.ok.inj ha₁).symm, pos := rfl }

theorem SameProgress.after_chunkState {s₁ s₂ t₁ t₂ : State} (h : SameProgress s₁ s₂) (h₁ : chunkState s₁ = .ok t₁)
    (h₂ : chunkState s₂ = .ok t₂) : SameProgress t₁ t₂ := by
  obtain ⟨-, -, a₁, ha₁, rfl⟩ := chunkState_cases h₁
  obtain ⟨-, -, a₂, ha₂, rfl⟩ := chunkState_cases h₂
  rw [h.chunkAcc_eq, h.pos, h.acc, ha₂] at ha₁
  exact { h with acc := (Except.ok.inj ha₁).symm, pos := by rw [h.pos] }

theorem SameProgress.after_chunkLoop {n : Nat} {s₁ s₂ t₁ t₂ : State} (h : SameProgress s₁ s₂)
    (h₁ : chunkLoop n s₁ = .ok t₁) (h₂ : chunkLoop n s₂ = .ok t₂) : SameProgress t₁ t₂ := by
  induction n generalizing s₁ s₂ with
  | zero =>
    obtain rfl := Except.ok.inj h₁
    obtain rfl := Except.ok.inj h₂
    exact h
  | succ n ih =>
    obtain ⟨u₁, hu₁, hn₁⟩ := chunkLoop_succ_ok.mp h₁
    obtain ⟨u₂, hu₂, hn₂⟩ := chunkLoop_succ_ok.mp h₂
    exact ih (h.after_chunkState hu₁ hu₂) hn₁ hn₂

/-- The finalize step reads the accumulators alone (R99). -/
theorem SameProgress.finalState_result {s₁ s₂ t₁ t₂ : State} (h : SameProgress s₁ s₂) (h₁ : finalState s₁ = .ok t₁)
    (h₂ : finalState s₂ = .ok t₂) : t₁.result = t₂.result := by
  obtain ⟨-, rfl⟩ := finalState_cases h₁
  obtain ⟨-, rfl⟩ := finalState_cases h₂
  rw [endCall_result, endCall_result, h.acc]

/-- Both units run one number of chunks, so a call of the large engine ends with the same RESULT in both. -/
theorem SameBytes.execH65p_result {len : Nat} {s₁ s₂ t₁ t₂ : State} (h : SameBytes len s₁ s₂)
    (h₁ : execH65p len s₁ = .next t₁) (h₂ : execH65p len s₂ = .next t₂) : t₁.result = t₂.result := by
  obtain ⟨u₁, v₁, w₁, hbegin₁, hseed₁, hloop₁, hfinal₁⟩ := execH65p_cases h₁
  obtain ⟨u₂, v₂, w₂, hbegin₂, hseed₂, hloop₂, hfinal₂⟩ := execH65p_cases h₂
  rw [h.chunkMode] at hloop₁
  have hstart : SameProgress v₁ v₂ := (h.after_beginCall hbegin₁ hbegin₂).after_seedState hseed₁ hseed₂
  exact (hstart.after_chunkLoop hloop₁ hloop₂).finalState_result hfinal₁ hfinal₂

/-! ### The public function -/

theorem SameBytes.execHash64_result {len : Nat} {s₁ s₂ t₁ t₂ : State} (h : SameBytes len s₁ s₂)
    (h₁ : execHash64 len s₁ = .next t₁) (h₂ : execHash64 len s₂ = .next t₂) : t₁.result = t₂.result := by
  by_cases hlen : len ≤ 64
  · obtain ⟨lo, hi, value, band, -, -, hroute⟩ := execHash64_eq_band hlen
    rw [hroute] at h₁ h₂
    exact h.oneStepCall_result band h₁ h₂
  · rw [execHash64_of_65_le (by omega)] at h₁ h₂
    exact h.execH65p_result h₁ h₂

/-- Settles O38: both units complete, since both are within the contract, and two calls of HASH64 that complete on the
same bytes have one result, since they load the same words. -/
theorem resultDependsOnTheBytesAlone : Obligations.ResultDependsOnTheBytesAlone := by
  unfold Obligations.ResultDependsOnTheBytesAlone
  intro s₁ s₂ len hb₁ hb₂ hf₁ hf₂ hr₁ hr₂ hmode hbias hbytes
  obtain ⟨t₁, h₁⟩ := execHash64_completes hb₁ hf₁ hr₁
  obtain ⟨t₂, h₂⟩ := execHash64_completes hb₂ hf₂ hr₂
  have hsame : SameBytes len s₁ s₂ := { bytes := hbytes, chunkMode := hmode, aBias := hbias }
  exact ⟨t₁, t₂, h₁, h₂, hsame.execHash64_result h₁ h₂⟩

end Sys2Proof.Machine
end

section
/-! Decode and encode agree (spec/30_encoding.md R53 to R57): the seven CALL rows are the image of the decode. -/

namespace Sys2Proof

/-! ### The numbers that are no command word (R57) -/

/-- A number that does not fit LEN_W bits is no command word (R57). -/
theorem decode_of_lenRange {p : Params} {w : Nat} (h : 2 ^ p.lenW ≤ w) : decode p w = .error .lenRange := by
  rw [decode, if_pos h]

/-- A command word fits LEN_W bits (R57). -/
theorem lt_two_pow_lenW_of_decode {p : Params} {w : Nat} {i : Instr} (h : decode p w = .ok i) : w < 2 ^ p.lenW := by
  by_contra hw
  rw [decode_of_lenRange (Nat.not_lt.mp hw)] at h
  cases h

/-! ### The rows of a band of one step: every LEN_W carries their lengths (D1) -/

theorem decode_zero (p : Params) : decode p 0 = .ok (.h0 0) := by
  rw [decode_of_le_16 (Nat.two_pow_pos _) (Nat.zero_le 16), decodeSmall_zero]

section Rows

variable {p : Params} {len : Nat}

theorem decode_of_1_to_3 (hl : 1 ≤ len) (hh : len ≤ 3) : decode p len = .ok (.h1_3 len) := by
  rw [decode_of_le_16 (Machine.lt_two_pow_lenW (by omega)) (by omega), decodeSmall_of_1_to_3 hl hh]

theorem decode_of_4_to_7 (hl : 4 ≤ len) (hh : len ≤ 7) : decode p len = .ok (.h4_7 len) := by
  rw [decode_of_le_16 (Machine.lt_two_pow_lenW (by omega)) (by omega), decodeSmall_of_4_to_7 hl hh]

theorem decode_of_8_to_16 (hl : 8 ≤ len) (hh : len ≤ 16) : decode p len = .ok (.h8_16 len) := by
  rw [decode_of_le_16 (Machine.lt_two_pow_lenW (by omega)) hh, decodeSmall_of_8_le hl]

theorem decode_of_mem_17_to_32 (hl : 17 ≤ len) (hh : len ≤ 32) : decode p len = .ok (.h17_32 len) :=
  decode_of_17_to_32 (Machine.lt_two_pow_lenW (by omega)) hl hh

theorem decode_of_mem_33_to_64 (hl : 33 ≤ len) (hh : len ≤ 64) : decode p len = .ok (.h33_64 len) :=
  decode_of_33_to_64 (Machine.lt_two_pow_lenW (by omega)) hl hh

end Rows

/-! ### Both directions -/

/-- The row that a length fitting LEN_W bits selects is a well-formed CALL operation, and the length is its command
word. -/
theorem decode_of_fits {p : Params} {w : Nat} (hf : w < 2 ^ p.lenW) :
    ∃ i, decode p w = .ok i ∧ i.isCall = true ∧ i.wellFormed p = true ∧ encode i = some w := by
  obtain rfl | ⟨hl, hh⟩ | ⟨hl, hh⟩ | ⟨hl, hh⟩ | ⟨hl, hh⟩ | ⟨hl, hh⟩ | hl : w = 0 ∨ (1 ≤ w ∧ w ≤ 3) ∨ (4 ≤ w ∧ w ≤ 7) ∨
      (8 ≤ w ∧ w ≤ 16) ∨ (17 ≤ w ∧ w ≤ 32) ∨ (33 ≤ w ∧ w ≤ 64) ∨ 65 ≤ w := by omega
  · exact ⟨_, decode_zero p, rfl, rfl, rfl⟩
  · exact ⟨_, decode_of_1_to_3 hl hh, rfl, by simp [Instr.wellFormed, hl, hh], rfl⟩
  · exact ⟨_, decode_of_4_to_7 hl hh, rfl, by simp [Instr.wellFormed, hl, hh], rfl⟩
  · exact ⟨_, decode_of_8_to_16 hl hh, rfl, by simp [Instr.wellFormed, hl, hh], rfl⟩
  · exact ⟨_, decode_of_mem_17_to_32 hl hh, rfl, by simp [Instr.wellFormed, hl, hh], rfl⟩
  · exact ⟨_, decode_of_mem_33_to_64 hl hh, rfl, by simp [Instr.wellFormed, hl, hh], rfl⟩
  · exact ⟨_, decode_of_65_le hf hl, rfl, by simp [Instr.wellFormed, hl, hf], rfl⟩

/-- What the decoder reads is a well-formed CALL operation with that command word. -/
theorem encode_of_decode {p : Params} {w : Nat} {i : Instr} (h : decode p w = .ok i) :
    i.isCall = true ∧ i.wellFormed p = true ∧ encode i = some w := by
  obtain ⟨j, hj, hspec⟩ := decode_of_fits (lt_two_pow_lenW_of_decode h)
  obtain rfl : j = i := Except.ok.inj (hj.symm.trans h)
  exact hspec

/-- The command word of a well-formed CALL operation is read back as that operation: its length lies in the row's band
and fits LEN_W bits. -/
theorem decode_encode {p : Params} {i : Instr} (hc : i.isCall = true) (hw : i.wellFormed p = true) :
    ∃ w, encode i = some w ∧ decode p w = .ok i := by
  cases i with
  | h0 len =>
    obtain rfl : len = 0 := by simpa [Instr.wellFormed] using hw
    exact ⟨0, rfl, decode_zero p⟩
  | h1_3 len =>
    obtain ⟨hl, hh⟩ : 1 ≤ len ∧ len ≤ 3 := by simpa [Instr.wellFormed] using hw
    exact ⟨len, rfl, decode_of_1_to_3 hl hh⟩
  | h4_7 len =>
    obtain ⟨hl, hh⟩ : 4 ≤ len ∧ len ≤ 7 := by simpa [Instr.wellFormed] using hw
    exact ⟨len, rfl, decode_of_4_to_7 hl hh⟩
  | h8_16 len =>
    obtain ⟨hl, hh⟩ : 8 ≤ len ∧ len ≤ 16 := by simpa [Instr.wellFormed] using hw
    exact ⟨len, rfl, decode_of_8_to_16 hl hh⟩
  | h17_32 len =>
    obtain ⟨hl, hh⟩ : 17 ≤ len ∧ len ≤ 32 := by simpa [Instr.wellFormed] using hw
    exact ⟨len, rfl, decode_of_mem_17_to_32 hl hh⟩
  | h33_64 len =>
    obtain ⟨hl, hh⟩ : 33 ≤ len ∧ len ≤ 64 := by simpa [Instr.wellFormed] using hw
    exact ⟨len, rfl, decode_of_mem_33_to_64 hl hh⟩
  | h65p len =>
    obtain ⟨hl, hf⟩ : 65 ≤ len ∧ len < 2 ^ p.lenW := by simpa [Instr.wellFormed] using hw
    exact ⟨len, rfl, decode_of_65_le hf hl⟩
  | _ => cases hc

/-- Settles O3: `decode_encode` reads a well-formed operation back, and `encode_of_decode` says what is read. -/
theorem decodeEncodeAgree : Obligations.DecodeEncodeAgree := by
  unfold Obligations.DecodeEncodeAgree
  exact ⟨fun _ _ => decode_encode, fun _ _ _ => encode_of_decode⟩

/-- Settles O4: a number fits LEN_W bits and has a row, or does not and is refused. -/
theorem commandWordsAreTheLengthsThatFit : Obligations.CommandWordsAreTheLengthsThatFit := by
  unfold Obligations.CommandWordsAreTheLengthsThatFit
  intro p w
  refine ⟨⟨fun hf => ?fits, fun ⟨_, hi⟩ => lt_two_pow_lenW_of_decode hi⟩, decode_of_lenRange, fun he => ?error⟩
  case fits =>
    obtain ⟨i, hi, -⟩ := decode_of_fits hf
    exact ⟨i, hi⟩
  case error =>
    by_contra hw
    obtain ⟨i, hi, -⟩ := decode_of_fits (Nat.not_le.mp hw)
    rw [he] at hi
    cases hi

/-- Settles O2: each word is in the band of the operation named; 65 and 68 fit every LEN_W (D1), 200 and 128 one of 8
bits. -/
theorem sampleWordsDecode : Obligations.SampleWordsDecode := by
  unfold Obligations.SampleWordsDecode
  intro p
  have h128 : 2 ^ 7 ≤ 2 ^ p.lenW := Nat.pow_le_pow_right (by omega) (Machine.le_lenW p)
  refine ⟨decode_zero p, decode_of_1_to_3 (by omega) (by omega), decode_of_4_to_7 (by omega) (by omega),
    decode_of_8_to_16 (by omega) (by omega), decode_of_mem_17_to_32 (by omega) (by omega),
    decode_of_mem_33_to_64 (by omega) (by omega), decode_of_65_le (by omega) (by omega),
    decode_of_65_le (by omega) (by omega), fun h8 => ?_⟩
  have h256 : 2 ^ 8 ≤ 2 ^ p.lenW := Nat.pow_le_pow_right (by omega) h8
  exact ⟨decode_of_65_le (by omega) (by omega), decode_of_65_le (by omega) (by omega)⟩

end Sys2Proof
end

section
/-! What a step of the machine can do, said once (spec/46_dispatcher.md R106, R107; spec/60_exceptions.md R117), and what
that leaves unchanged. -/

namespace Sys2Proof.Machine

/-! ### START -/

/-- The first step of an operation other than H65P is the operation itself (R106, first row). -/
theorem firstStep_of_ne_h65p {i : Instr} (h : ∀ len, i ≠ .h65p len) (s : State) : firstStep i s = exec i s := by
  cases i with
  | h65p len => exact absurd rfl (h len)
  | _ => rfl

/-- The first step of H65P is its seed step on the latched length (R106, second row). -/
theorem firstStep_h65p (len : Nat) (s : State) : firstStep (.h65p len) s = toOutcome (startSeed len s) := by
  simp only [firstStep, startSeed]
  cases beginCall 65 (maxLen s) len s <;> rfl

theorem startStep_of_decode {len : Nat} {s : State} {i : Instr} (h : decode s.params len = .ok i) :
    startStep len s = firstStep i s := by
  simp only [startStep, h]

theorem startStep_of_lenRange {len : Nat} {s : State} (h : 2 ^ s.params.lenW ≤ len) :
    startStep len s = .refused .lenRange := by
  simp only [startStep, decode_of_lenRange h]

/-! ### The ways a step answers -/

/-- The ways `step s` can answer `t`: nothing happens, an operation runs, a START runs the seed step, the unit is reset,
the host changes its buffer, or a value is delivered. `step_next` ties it to `step`. -/
inductive StepAnswers (s t : State) : Prop where
  | nothing (ht : t = takeInput s)
  | operation (i : Instr) (run : exec i (takeInput s) = .next t)
  | seed (len : Nat) (run : startSeed len (takeInput s) = .ok t)
  | reset (ht : t = resetUnit (takeInput s))
  | placed (bs : List Byte) (input : currentInput s = .place bs)
      (run : changeBuffer 0 (placeBytes bs) (takeInput s) = .next t)
  | wrote (a : Nat) (b : Byte) (input : currentInput s = .write a b)
      (run : changeBuffer a (writeByte a b s.buf) (takeInput s) = .next t)
  | delivered (v : Value) (ht : t = deliver v (takeInput s))

theorem autoStep_next {s t : State} (h : autoStep s = .next t) : t = s ∨ ∃ i, exec i s = .next t := by
  cases hp : s.phase <;> simp only [autoStep, hp] at h
  case idle | done => exact .inl (Host.Outcome.next.inj h).symm
  case seeded | loop | looped => exact .inr ⟨_, h⟩

/-- A START that answers runs an operation of one step, or the seed step. -/
theorem startStep_next {len : Nat} {s t : State} (h : startStep len s = .next t) :
    (∃ i, exec i s = .next t) ∨ ∃ n, startSeed n s = .ok t := by
  simp only [startStep] at h
  split at h
  · cases h
  · next i _ =>
    by_cases hi : ∀ n, i ≠ .h65p n
    · rw [firstStep_of_ne_h65p hi] at h
      exact .inl ⟨i, h⟩
    · obtain ⟨n, rfl⟩ := by simpa using hi
      rw [firstStep_h65p, toOutcome_next] at h
      exact .inr ⟨n, h⟩

/-- RESULT is read while DONE = 1 (R129). -/
theorem readResult_next {s t : State} (h : readResult s = .next t) : doneFlag s = true ∧ t = deliver (.u64 s.result) s := by
  simp only [readResult] at h
  split at h
  · next hd => exact ⟨hd, (Host.Outcome.next.inj h).symm⟩
  · cases h

/-- Every step that answers does so in one of the ways of `StepAnswers`. -/
theorem step_next {s t : State} (h : step s = .next t) : StepAnswers s t := by
  rw [step_eq] at h
  cases hin : currentInput s <;> simp only [hin, inputStep] at h
  case quiet =>
    obtain rfl | ⟨i, hi⟩ := autoStep_next h
    · exact .nothing rfl
    · exact .operation i hi
  case reset => exact .reset (Host.Outcome.next.inj h).symm
  case start len =>
    obtain ⟨i, hi⟩ | ⟨n, hn⟩ := startStep_next h
    · exact .operation i hi
    · exact .seed n hn
  case place bs => exact .placed bs hin h
  case write a b => exact .wrote a b hin h
  case readBusy | readDone => exact .delivered _ (Host.Outcome.next.inj h).symm
  case readResult => exact .delivered _ (readResult_next h).2

/-- If the first step of H65P answers t, then the call began and its seed step ran. -/
theorem startSeed_cases {len : Nat} {s t : State} (h : startSeed len s = .ok t) :
    ∃ s0, beginCall 65 (maxLen s) len s = .ok s0 ∧ seedState s0 = .ok t := by
  simpa only [startSeed, except_bind_ok] using h

theorem startSeed_frame {len : Nat} {s t : State} (h : startSeed len s = .ok t) :
    t = { s with len := t.len, acc := t.acc, pos := t.pos, rem := t.rem, phase := t.phase } := by
  obtain ⟨s0, h0, h1⟩ := startSeed_cases h
  rw [seedState_frame h1, beginCall_frame h0]

/-! ### What a step leaves unchanged -/

/-- A step takes one host input and keeps the parameters (R26). -/
theorem step_keeps_params_and_takes_input {s t : State} (h : step s = .next t) :
    t.params = s.params ∧ t.inputs = s.inputs.tail := by
  cases step_next h with
  | nothing ht | reset ht | delivered _ ht => subst ht; exact ⟨rfl, rfl⟩
  | operation i hr => rw [exec_frame hr]; exact ⟨rfl, rfl⟩
  | seed len hr => rw [startSeed_frame hr]; exact ⟨rfl, rfl⟩
  | placed _ _ hr | wrote _ _ _ hr => rw [(changeBuffer_next hr).2]; exact ⟨rfl, rfl⟩

/-- The buffer changes by the host's hand alone (R40). -/
theorem step_keeps_buf {s t : State} (h : step s = .next t) (hp : ∀ bs, currentInput s ≠ .place bs)
    (hw : ∀ a b, currentInput s ≠ .write a b) : t.buf = s.buf := by
  cases step_next h with
  | nothing ht | reset ht | delivered _ ht => subst ht; rfl
  | operation i hr => rw [exec_frame hr]; rfl
  | seed len hr => rw [startSeed_frame hr]; rfl
  | placed bs hin => exact absurd hin (hp bs)
  | wrote a b hin => exact absurd hin (hw a b)

/-- Settles O58: in every way a step answers, the parameters are as before; BUF is written by the host's two actions
alone. -/
theorem stepKeepsParametersAndBuffer : Obligations.StepKeepsParametersAndBuffer := by
  unfold Obligations.StepKeepsParametersAndBuffer
  intro s t h
  obtain ⟨hparams, hinputs⟩ := step_keeps_params_and_takes_input h
  refine ⟨hparams, hinputs, fun hp hw => ?_⟩
  have hbuf := step_keeps_buf h hp hw
  exact ⟨hbuf, fun a => by rw [hbuf]⟩

end Sys2Proof.Machine
end

section
/-! The invariant of the machine (spec/10_state.md R14, R17, R18; spec/45_rolling_engine_64plus.md R96): each part of a
call keeps it, so every operation does, and with the host's actions every step does. -/

namespace Sys2Proof.Machine

/-! ### States that differ in no register the invariant speaks of, or that are out of a call -/

theorem Inv.out_of_call {s t : State} (h : Inv s) (hb : busyFlag t = false) (hbuf : t.buf = s.buf)
    (hlen : t.len.toNat < 2 ^ s.params.lenW) (hpos : t.pos = s.pos) (hrem : t.rem = s.rem) (hparams : t.params = s.params) :
    Inv t where
  bufWf := hbuf ▸ h.bufWf
  lenFit := hparams ▸ hlen
  posFit := by rw [hpos, hparams]; exact h.posFit
  remFit := by rw [hrem, hparams]; exact h.remFit
  call := fun hb' => by rw [hb] at hb'; cases hb'

theorem Inv.takeInput {s : State} (h : Inv s) : Inv (takeInput s) where
  bufWf := h.bufWf
  lenFit := h.lenFit
  posFit := h.posFit
  remFit := h.remFit
  call := fun hb => { h.call hb with }

theorem Inv.deliver {s : State} (h : Inv s) (v : Value) : Inv (deliver v s) where
  bufWf := h.bufWf
  lenFit := h.lenFit
  posFit := h.posFit
  remFit := h.remFit
  call := fun hb => { h.call hb with }

/-! ### The parts of a call -/

theorem Inv.after_beginCall {lo hi len : Nat} {s t : State} (h : Inv s) (hr : beginCall lo hi len s = .ok t) : Inv t := by
  obtain ⟨hf, hb, -, -, -, rfl⟩ := beginCall_cases hr
  exact h.out_of_call hb rfl ((toNat_ofNat_len hf).trans_lt hf) rfl rfl rfl

theorem Inv.endCall {s : State} (h : Inv s) (v : Word) : Inv (endCall v s) :=
  h.out_of_call rfl rfl h.lenFit rfl rfl rfl

theorem Inv.after_seedState {s t : State} (h : Inv s) (hr : seedState s = .ok t) : Inv t := by
  obtain ⟨-, hl, hread, a, -, rfl⟩ := seedState_cases hr
  obtain ⟨hpos, hle⟩ := nchunks_bounds (mode := s.params.chunkMode) hl
  have hfit : 64 * nchunks s.params.chunkMode s.len.toNat < 2 ^ s.params.lenW := hle.trans_lt h.lenFit
  have hrem := toNat_ofNat_len hfit
  have hne : BitVec.ofNat 64 (64 * nchunks s.params.chunkMode s.len.toNat) ≠ 0 := fun hz => by
    have hzero : (BitVec.ofNat 64 (64 * nchunks s.params.chunkMode s.len.toNat)).toNat = 0 := congrArg BitVec.toNat hz
    omega
  exact {
    bufWf := h.bufWf
    lenFit := h.lenFit
    posFit := Nat.two_pow_pos _
    remFit := hrem.trans_lt hfit
    call := fun _ => {
      long := hl
      readable := hread
      sum := by simpa using hrem
      aligned := by simp only [hrem]; omega
      seeded := fun _ => rfl
      loop := fun hp => by cases hp
      looped := ⟨fun hp => (by cases hp), fun hz => absurd hz hne⟩ } }

/-- A chunk step moves 64 from REM to POS, whose sum lies below LEN, so neither counter wraps (R96). -/
theorem Inv.after_chunkState {s t : State} (h : Inv s) (hr : chunkState s = .ok t) : Inv t := by
  obtain ⟨hphase, hleft, a, -, rfl⟩ := chunkState_cases hr
  have hcall : InCall s := h.call ((busyFlag_eq_true_iff s).mpr (hphase.imp_right .inl))
  have hsum := hcall.sum
  have haligned := hcall.aligned
  have hle := (nchunks_bounds (mode := s.params.chunkMode) hcall.long).2
  have hfit := h.lenFit
  have hpos : (BitVec.ofNat 64 (s.pos.toNat + 64)).toNat = s.pos.toNat + 64 :=
    toNat_ofNat_len (p := s.params) (by omega)
  have hrem : (BitVec.ofNat 64 (s.rem.toNat - 64)).toNat = s.rem.toNat - 64 :=
    toNat_ofNat_len (p := s.params) (by omega)
  exact {
    bufWf := h.bufWf
    lenFit := hfit
    posFit := by simp only [hpos]; omega
    remFit := by simp only [hrem]; omega
    call := fun _ => {
      long := hcall.long
      readable := hcall.readable
      sum := by simp only [hpos, hrem]; omega
      aligned := by simp only [hrem]; omega
      seeded := fun hp => by dsimp only at hp; split at hp <;> cases hp
      loop := fun _ => by simp only [hpos]; omega
      looped := by
        rw [← BitVec.toNat_inj, hrem]
        simp } }

theorem Inv.after_finalState {s t : State} (h : Inv s) (hr : finalState s = .ok t) : Inv t := by
  obtain ⟨-, rfl⟩ := finalState_cases hr
  exact h.endCall _

theorem Inv.after_oneStepCall {lo hi len : Nat} {value : State → Except Refusal Word} {s t : State} (h : Inv s)
    (hr : oneStepCall lo hi value len s = .next t) : Inv t := by
  obtain ⟨s1, v, h1, -, rfl⟩ := oneStepCall_next hr
  exact (h.after_beginCall h1).endCall v

theorem Inv.after_startSeed {len : Nat} {s t : State} (h : Inv s) (hr : startSeed len s = .ok t) : Inv t := by
  obtain ⟨s0, h0, h1⟩ := startSeed_cases hr
  exact (h.after_beginCall h0).after_seedState h1

theorem Inv.after_chunkLoop {n : Nat} {s t : State} (h : Inv s) (hr : chunkLoop n s = .ok t) : Inv t :=
  chunkLoop_induction (P := fun s t => Inv s → Inv t) (fun _ => id) (fun _ _ _ h₁ h₂ => h₂ ∘ h₁)
    (fun _ _ hc hi => hi.after_chunkState hc) n s t hr h

theorem Inv.after_execH65p {len : Nat} {s t : State} (h : Inv s) (hr : execH65p len s = .next t) : Inv t := by
  obtain ⟨s0, s1, s2, h0, h1, h2, h3⟩ := execH65p_cases hr
  exact (((h.after_beginCall h0).after_seedState h1).after_chunkLoop h2).after_finalState h3

/-! ### Every operation -/

theorem Inv.after_exec {i : Instr} {s t : State} (h : Inv s) (hr : exec i s = .next t) : Inv t := by
  cases exec_next hr with
  | delivered v ht => exact ht ▸ h.deliver v
  | oneStep _ _ _ _ _ hr => exact h.after_oneStepCall hr
  | large _ _ hr => exact h.after_execH65p hr
  | seed _ hr => exact h.after_seedState hr
  | chunk _ hr => exact h.after_chunkState hr
  | final _ hr => exact h.after_finalState hr

/-- Settles O54: each of the ways an operation answers keeps the invariant. -/
theorem everyOperationKeepsTheInvariant : Obligations.EveryOperationKeepsTheInvariant := by
  unfold Obligations.EveryOperationKeepsTheInvariant
  exact fun _ _ _ => Inv.after_exec

/-! ### The host's actions -/

theorem Inv.resetUnit {s : State} (h : Inv s) : Inv (resetUnit s) where
  bufWf := h.bufWf
  lenFit := Nat.two_pow_pos _
  posFit := Nat.two_pow_pos _
  remFit := Nat.two_pow_pos _
  call := fun hb => by cases hb

/-- The host may leave any buffer in canonical form outside a call, and during one a buffer readable for x[LEN]. -/
theorem Inv.with_buf {s : State} {m : Memory} (h : Inv s) (hwf : Memory.wf m = true)
    (hread : busyFlag s = true → s.len.toNat ≤ extent m) : Inv { s with buf := m } where
  bufWf := hwf
  lenFit := h.lenFit
  posFit := h.posFit
  remFit := h.remFit
  call := fun hb => { h.call hb with readable := hread hb }

/-- A byte written at or beyond `n` leaves the first `n` bytes readable. -/
theorem le_extent_writeByte {m : Memory} {n a : Nat} (hwf : Memory.wf m = true) (hn : n ≤ extent m) (ha : n ≤ a) (b : Byte) :
    n ≤ extent (writeByte a b m) := by
  rw [le_extent_iff (wf_writeByte hwf)]
  intro c hc
  rw [readByte_writeByte_other (by omega)]
  exact (le_extent_iff hwf n).mp hn c hc

/-- No buffer is placed during a call, since LEN is not 0 then. -/
theorem Inv.after_place {bs : List Byte} {s t : State} (h : Inv s) (hr : changeBuffer 0 (placeBytes bs) s = .next t) :
    Inv t := by
  obtain ⟨hbusy, rfl⟩ := changeBuffer_next hr
  refine h.with_buf (wf_placeBytes bs) fun hb => ?_
  have hlong := (h.call hb).long
  have hzero := hbusy hb
  omega

theorem Inv.after_write {a : Nat} {b : Byte} {s t : State} (h : Inv s)
    (hr : changeBuffer a (writeByte a b s.buf) s = .next t) : Inv t := by
  obtain ⟨hbusy, rfl⟩ := changeBuffer_next hr
  exact h.with_buf (wf_writeByte h.bufWf) fun hb => le_extent_writeByte h.bufWf (h.call hb).readable (hbusy hb) b

/-! ### Every step -/

theorem Inv.after_step {s t : State} (h : Inv s) (hr : step s = .next t) : Inv t := by
  have hi : Inv (Machine.takeInput s) := h.takeInput
  cases step_next hr with
  | nothing ht => exact ht ▸ hi
  | operation _ hr => exact hi.after_exec hr
  | seed _ hr => exact hi.after_startSeed hr
  | reset ht => exact ht ▸ hi.resetUnit
  | placed _ _ hr => exact hi.after_place hr
  | wrote _ _ _ hr => exact hi.after_write hr
  | delivered v ht => exact ht ▸ hi.deliver v

/-- Settles O53: a step takes the host's input and then runs an operation or one of the host's actions, each of which
keeps the invariant. -/
theorem everyStepKeepsTheInvariant : Obligations.EveryStepKeepsTheInvariant := by
  unfold Obligations.EveryStepKeepsTheInvariant
  exact fun _ _ => Inv.after_step

/-- Settles O52: the reset state is out of a call, and its registers hold 0. -/
theorem resetMeetsTheInvariant : Obligations.ResetMeetsTheInvariant := by
  unfold Obligations.ResetMeetsTheInvariant
  exact ⟨rfl, rfl, rfl, {
    bufWf := rfl
    lenFit := Nat.two_pow_pos _
    posFit := Nat.two_pow_pos _
    remFit := Nat.two_pow_pos _
    call := fun hb => by cases hb }⟩

end Sys2Proof.Machine
end

section
/-! What an operation writes and how it can stop (spec/10_state.md table R27, spec/60_exceptions.md R110). -/

namespace Sys2Proof.Machine

/-! ### Which operation writes which register -/

/-- Settles O41: outside the large engine an operation delivers a value, runs a band of one step or finalizes, and none
of these writes an accumulator, POS or REM. -/
theorem onlyTheLargeEngineWritesAccumulators : Obligations.OnlyTheLargeEngineWritesAccumulators := by
  unfold Obligations.OnlyTheLargeEngineWritesAccumulators
  intro i s t h hh65p hhash hseed hchunk
  cases exec_next h with
  | delivered v ht => subst ht; exact ⟨rfl, rfl, rfl⟩
  | oneStep lo hi len value _ hr =>
    obtain ⟨v, ht⟩ := oneStepCall_frame hr
    rw [ht]
    exact ⟨rfl, rfl, rfl⟩
  | large len op _ => exact (op.elim (hh65p len) fun ⟨hi, hl⟩ => hhash len hl hi).elim
  | seed op _ => exact absurd op hseed
  | chunk op _ => exact absurd op hchunk
  | final _ hr =>
    rw [finalState_frame hr]
    exact ⟨rfl, rfl, rfl⟩

/-- Only an operation that ends a call changes RESULT (R16). -/
theorem doneFlag_of_result_ne {i : Instr} {s t : State} (h : exec i s = .next t) (hne : t.result ≠ s.result) :
    doneFlag t = true := by
  cases exec_next h with
  | delivered v ht => exact absurd (ht ▸ rfl) hne
  | oneStep lo hi len value _ hr =>
    obtain ⟨v, ht⟩ := oneStepCall_frame hr
    rw [ht]
    rfl
  | large len _ hr => rw [execH65p_frame hr]; rfl
  | seed _ hr => exact absurd (by rw [seedState_frame hr]) hne
  | chunk _ hr => exact absurd (by rw [chunkState_frame hr]) hne
  | final _ hr => rw [finalState_frame hr]; rfl

/-- An operation that begins no call leaves LEN as it is, and RESULT unless it is the finalize step. -/
theorem exec_frame_of_no_call {i : Instr} {s t : State} (h : exec i s = .next t) (hcall : i.isCall = false)
    (hhash : ∀ len, i ≠ .hash64 len) (hsmall : ∀ len, i ≠ .small0to16 len) :
    t.len = s.len ∧ (i ≠ .h65pFinal → t.result = s.result) := by
  cases exec_next h with
  | delivered v ht => subst ht; exact ⟨rfl, fun _ => rfl⟩
  | oneStep lo hi len value op _ =>
    obtain hc | hh | hs := op
    · rw [hcall] at hc
      cases hc
    · exact absurd hh (hhash len)
    · exact absurd hs (hsmall len)
  | large len op _ =>
    obtain rfl | ⟨hh, -⟩ := op
    · cases hcall
    · exact absurd hh (hhash len)
  | seed _ hr => rw [seedState_frame hr]; exact ⟨rfl, fun _ => rfl⟩
  | chunk _ hr => rw [chunkState_frame hr]; exact ⟨rfl, fun _ => rfl⟩
  | final op hr => rw [finalState_frame hr]; exact ⟨rfl, fun hne => absurd op hne⟩

/-- Settles O42: what writes RESULT ends a call, and what begins no call writes no LEN. -/
theorem resultIsWrittenOnlyAtTheEndOfACall : Obligations.ResultIsWrittenOnlyAtTheEndOfACall := by
  unfold Obligations.ResultIsWrittenOnlyAtTheEndOfACall
  exact fun _ _ _ h => ⟨doneFlag_of_result_ne h, exec_frame_of_no_call h⟩

/-! ### Faults -/

theorem execSmall0to16_no_fault {len : Nat} {s : State} {f : Fault} : execSmall0to16 len s ≠ .fault f := by
  simp only [execSmall0to16]
  split
  · simp
  · split_ifs <;> exact oneStepCall_no_fault

theorem execHash64_no_fault {len : Nat} {s : State} {f : Fault} : execHash64 len s ≠ .fault f := by
  simp only [execHash64]
  split_ifs
  · exact execSmall0to16_no_fault
  · exact oneStepCall_no_fault
  · exact oneStepCall_no_fault
  · exact toOutcome_no_fault

/-- No operation takes a fault (R110): a band is a call of one step, the large engine and its steps answer a state or a
refusal, and a primitive a value or a refusal. -/
theorem exec_no_fault (i : Instr) (s : State) (f : Fault) : exec i s ≠ .fault f := by
  cases i with
  | h0 =>
    rw [exec_h0, execH0]
    exact oneStepCall_no_fault
  | h1_3 | h4_7 | h8_16 | h17_32 | h33_64 => exact oneStepCall_no_fault
  | hash64 => exact execHash64_no_fault
  | small0to16 => exact execSmall0to16_no_fault
  | h65p | h65pSeed | h65pChunk | h65pFinal => exact toOutcome_no_fault
  | rotr v k =>
    rw [exec_rotr, execRotr]
    split
    · exact answer_no_fault
    · simp
  | fetch64 | fetch32 | fetch8 | loadBytes | weakHash32M => exact answer_no_fault
  | shiftMix | hashLen16M | hashLen16 | weakHash32 | bswap64 => nofun

theorem startStep_no_fault {len : Nat} {s : State} {f : Fault} : startStep len s ≠ .fault f := by
  simp only [startStep]
  split
  · simp
  · next i _ =>
    by_cases hi : ∀ n, i ≠ .h65p n
    · rw [firstStep_of_ne_h65p hi]
      exact exec_no_fault i s f
    · obtain ⟨n, rfl⟩ := by simpa using hi
      rw [firstStep_h65p]
      exact toOutcome_no_fault

theorem autoStep_no_fault {s : State} {f : Fault} : autoStep s ≠ .fault f := by
  simp only [autoStep]
  split <;> simp [exec_no_fault]

theorem changeBuffer_no_fault {lowest : Nat} {m : Memory} {s : State} {f : Fault} :
    changeBuffer lowest m s ≠ .fault f := by
  simp only [changeBuffer]
  split <;> simp

/-- The one fault of the model is the read of RESULT while DONE = 0 (D27). -/
theorem step_fault {s : State} {f : Fault} (h : step s = .fault f) :
    currentInput s = .readResult ∧ doneFlag s = false ∧ f = .unwrittenRead "RESULT" := by
  rw [step_eq] at h
  cases hin : currentInput s <;> simp only [hin, inputStep] at h
  case quiet => exact absurd h autoStep_no_fault
  case start => exact absurd h startStep_no_fault
  case place | write => exact absurd h changeBuffer_no_fault
  case readResult =>
    simp only [readResult] at h
    split at h
    · cases h
    · next hd => exact ⟨rfl, Bool.eq_false_iff.mpr hd, (Host.Outcome.fault.inj h).symm⟩
  all_goals cases h

/-- Settles O43: by `exec_no_fault` and `step_fault`. -/
theorem onlyReadingAnInvalidResultFaults : Obligations.OnlyReadingAnInvalidResultFaults := by
  unfold Obligations.OnlyReadingAnInvalidResultFaults
  exact ⟨exec_no_fault, fun _ _ => step_fault⟩

end Sys2Proof.Machine
end

section
/-! The routes of a call and its refusals (spec/46_dispatcher.md R103, R105; spec/60_exceptions.md R111 to R113): the
whole check of a call is `beginCall 0 len len`, whatever the band that makes it. -/

namespace Sys2Proof.Machine

/-! ### The routes -/

theorem execHash64_of_17_to_32 {len : Nat} (hl : 17 ≤ len) (hh : len ≤ 32) (s : State) :
    execHash64 len s = execH17_32 len s := by
  rw [execHash64, if_neg (by omega), if_pos hh]

theorem execHash64_of_33_to_64 {len : Nat} (hl : 33 ≤ len) (hh : len ≤ 64) (s : State) :
    execHash64 len s = execH33_64 len s := by
  rw [execHash64, if_neg (by omega), if_neg (by omega), if_pos hh]

/-- Settles O34: the four routes of R103. -/
theorem dispatcherRoutesByLength : Obligations.DispatcherRoutesByLength := by
  unfold Obligations.DispatcherRoutesByLength
  exact fun s _ => ⟨(execHash64_of_le_16 · s), (execHash64_of_17_to_32 · · s), (execHash64_of_33_to_64 · · s),
    (execHash64_of_65_le · s)⟩

/-- The decoder and the router agree: the operation read from a command word is HASH64 of that length. -/
theorem exec_of_decode {p : Params} {w : Nat} {i : Instr} (h : decode p w = .ok i) (s : State) :
    exec i s = execHash64 w s := by
  have hf := lt_two_pow_lenW_of_decode h
  obtain h16 | ⟨hl, hh⟩ | ⟨hl, hh⟩ | hl : w ≤ 16 ∨ (17 ≤ w ∧ w ≤ 32) ∨ (33 ≤ w ∧ w ≤ 64) ∨ 65 ≤ w := by omega
  · obtain rfl := Except.ok.inj ((decode_of_le_16 hf h16).symm.trans h)
    exact (execHash64_of_le_16_eq_exec_decodeSmall h16 s).symm
  · obtain rfl := Except.ok.inj ((decode_of_17_to_32 hf hl hh).symm.trans h)
    exact (execHash64_of_17_to_32 hl hh s).symm
  · obtain rfl := Except.ok.inj ((decode_of_33_to_64 hf hl hh).symm.trans h)
    exact (execHash64_of_33_to_64 hl hh s).symm
  · obtain rfl := Except.ok.inj ((decode_of_65_le hf hl).symm.trans h)
    exact (execHash64_of_65_le hl s).symm

/-! ### The reasons for which a call does not begin (R111, R113) -/

theorem beginCall_lenRange {lo hi len : Nat} {s : State} (hf : 2 ^ s.params.lenW ≤ len) :
    beginCall lo hi len s = .error .lenRange := by
  rw [beginCall, if_pos hf]

theorem beginCall_busy {lo hi len : Nat} {s : State} (hf : len < 2 ^ s.params.lenW) (hb : busyFlag s = true) :
    beginCall lo hi len s = .error .busy := by
  simp [beginCall, checkCall, Nat.not_le.mpr hf, hb]

theorem beginCall_outOfBounds {len : Nat} {s : State} (hf : len < 2 ^ s.params.lenW) (hb : busyFlag s = false)
    (hr : ¬ Readable len s) : beginCall 0 len len s = .error .outOfBounds := by
  simp [beginCall, checkCall, Nat.not_le.mpr hf, hb, Nat.not_le.mp hr]

/-- The upper end of the large engine's band is LEN_W's, which is checked first. -/
theorem beginCall_large {len : Nat} (hl : 65 ≤ len) (s : State) :
    beginCall 65 (maxLen s) len s = beginCall 0 len len s := by
  by_cases hf : len < 2 ^ s.params.lenW
  · exact beginCall_eq_of_mem_bands hl (le_maxLen hf) (Nat.zero_le len) le_rfl
  · rw [beginCall_lenRange (Nat.not_lt.mp hf), beginCall_lenRange (Nat.not_lt.mp hf)]

theorem startSeed_refused {len : Nat} {s : State} {r : Refusal} (h : beginCall 65 (maxLen s) len s = .error r) :
    startSeed len s = .error r := by
  simp only [startSeed, h, error_bind]

theorem execH65p_refused {len : Nat} {s : State} {r : Refusal} (h : beginCall 65 (maxLen s) len s = .error r) :
    execH65p len s = .refused r := by
  simp only [execH65p, startSeed_refused h, error_bind, toOutcome]

/-- A call that does not begin is refused for that reason on each route. -/
theorem execHash64_refused {len : Nat} {s : State} {r : Refusal} (h : beginCall 0 len len s = .error r) :
    execHash64 len s = .refused r := by
  by_cases h64 : len ≤ 64
  · obtain ⟨lo, hi, value, -, hl, hh, hroute⟩ := execHash64_eq_band h64
    rw [hroute]
    exact oneStepCall_refused ((beginCall_eq_of_mem_bands hl hh (Nat.zero_le len) le_rfl).trans h)
  · rw [execHash64_of_65_le (by omega)]
    exact execH65p_refused ((beginCall_large (by omega) s).trans h)

/-- Settles O35: outside the contract the check of the call refuses it, for the first reason in the order of R113; within
it the call completes. -/
theorem callRefusedExactlyOutsideTheContract : Obligations.CallRefusedExactlyOutsideTheContract := by
  unfold Obligations.CallRefusedExactlyOutsideTheContract
  intro s len
  rw [exec_hash64]
  have hlenRange (hf : 2 ^ s.params.lenW ≤ len) := execHash64_refused (beginCall_lenRange (lo := 0) (hi := len) hf)
  have hbusy (hf : len < 2 ^ s.params.lenW) (hb : busyFlag s = true) :=
    execHash64_refused (beginCall_busy (lo := 0) (hi := len) hf hb)
  have hbounds (hf : len < 2 ^ s.params.lenW) (hb : busyFlag s = false) (hr : ¬ Readable len s) :=
    execHash64_refused (beginCall_outOfBounds hf hb hr)
  refine ⟨hlenRange, hbusy, hbounds, fun ⟨t, ht⟩ => ?_, fun ⟨hf, hb, hr⟩ => execHash64_completes hb hf hr⟩
  have hf : len < 2 ^ s.params.lenW := by
    by_contra hf
    cases ht.symm.trans (hlenRange (Nat.not_lt.mp hf))
  have hb : busyFlag s = false := by
    by_contra hb
    cases ht.symm.trans (hbusy hf (Bool.not_eq_false _ ▸ hb))
  refine ⟨hf, hb, ?_⟩
  by_contra hr
  cases ht.symm.trans (hbounds hf hb hr)

/-- Settles O36: each band's check, and that of the tier 0 to 16, refuses the length. -/
theorem lengthOutsideTheBandIsRefused : Obligations.LengthOutsideTheBandIsRefused := by
  unfold Obligations.LengthOutsideTheBandIsRefused
  intro s len hb hf
  have hband {lo hi : Nat} {value : State → Except Refusal Word} (hout : len < lo ∨ hi < len) :
      oneStepCall lo hi value len s = .refused .bandMismatch := oneStepCall_refused (beginCall_bandMismatch hf hb hout)
  exact ⟨fun hne => hband (value := h0Value) (.inr (Nat.pos_of_ne_zero hne)), hband, hband, hband, hband, hband,
    fun hlt => execH65p_refused (beginCall_bandMismatch hf hb (.inl hlt)),
    fun hlt => execSmall0to16_refused (beginCall_bandMismatch hf hb (.inr hlt))⟩

/-! ### The steps of the large engine outside their phases -/

theorem chunkState_notEnabled {s : State} (h : chunkEnabled s = false) : chunkState s = .error .notEnabled := by
  simp [chunkState, h]

theorem finalState_notEnabled {s : State} (h : s.phase ≠ .looped) : finalState s = .error .notEnabled := by
  cases hp : s.phase <;> simp [finalState, hp]
  exact h hp

theorem seedState_busy {s : State} (h : busyFlag s = true) : seedState s = .error .busy := by
  have hc : checkCall 65 (maxLen s) s.len.toNat s = .error .busy := by simp [checkCall, h]
  simp only [seedState, hc, error_bind]

/-- Settles O37: a step that its PHASE does not enable is refused (R96, R99), and SEED begins no call during one. -/
theorem stepsOutsideTheirPhaseAreRefused : Obligations.StepsOutsideTheirPhaseAreRefused := by
  unfold Obligations.StepsOutsideTheirPhaseAreRefused
  intro s
  refine ⟨fun hs hl => ?chunk, fun hp => ?final, fun hb => ?seed⟩
  case chunk =>
    have hoff : chunkEnabled s = false := by
      rw [Bool.eq_false_iff, Ne, chunkEnabled_iff]
      exact fun ⟨hp, _⟩ => hp.elim hs hl
    rw [exec_h65pChunk, execH65pChunk, chunkState_notEnabled hoff, toOutcome]
  case final => rw [exec_h65pFinal, execH65pFinal, finalState_notEnabled hp, toOutcome]
  case seed => rw [exec_h65pSeed, execH65pSeed, seedState_busy hb, toOutcome]

end Sys2Proof.Machine
end

section
/-! The machine under each host input (spec/46_dispatcher.md R106, R107; spec/60_exceptions.md R117;
spec/70_reset_and_hazards.md R121 to R124). -/

namespace Sys2Proof.Machine

/-! ### START -/

/-- No word up to 64 selects the large engine. -/
theorem ne_h65p_of_decode {p : Params} {w : Nat} {i : Instr} (h : decode p w = .ok i) (hw : w ≤ 64) :
    ∀ len, i ≠ .h65p len := by
  rintro len rfl
  obtain ⟨-, hwf, he⟩ := encode_of_decode h
  obtain rfl : len = w := Option.some.inj he
  simp only [Instr.wellFormed, Bool.and_eq_true, decide_eq_true_eq] at hwf
  omega

/-- A START of a length up to 64 is HASH64 of it (R106, first row). -/
theorem startStep_of_le_64 {len : Nat} (h : len ≤ 64) (s : State) : startStep len s = execHash64 len s := by
  obtain ⟨i, hi, -⟩ := decode_of_fits (lt_two_pow_lenW (p := s.params) (by omega : len < 128))
  rw [startStep_of_decode hi, firstStep_of_ne_h65p (ne_h65p_of_decode hi h), exec_of_decode hi]

/-- A START of a longer length is the first step of H65P (R106, second row). -/
theorem startStep_of_65_le {len : Nat} (h : 65 ≤ len) (s : State) : startStep len s = toOutcome (startSeed len s) := by
  by_cases hf : len < 2 ^ s.params.lenW
  · rw [startStep_of_decode (decode_of_65_le hf h), firstStep_h65p]
  · rw [startStep_of_lenRange (Nat.not_lt.mp hf), startSeed_refused (beginCall_lenRange (Nat.not_lt.mp hf)), toOutcome]

/-- A START of a call that does not begin is refused for that reason. -/
theorem startStep_refused {len : Nat} {s : State} {r : Refusal} (h : beginCall 0 len len s = .error r) :
    startStep len s = .refused r := by
  by_cases h64 : len ≤ 64
  · rw [startStep_of_le_64 h64, execHash64_refused h]
  · have hl : 65 ≤ len := by omega
    rw [startStep_of_65_le hl, startSeed_refused ((beginCall_large hl s).trans h), toOutcome]

/-- A START of a long length within the contract runs the seed step on the latched length. -/
theorem startStep_seeds {len : Nat} {s : State} (hl : 65 ≤ len) (hf : len < 2 ^ s.params.lenW) (hb : busyFlag s = false)
    (hr : Readable len s) : startStep len s = exec .h65pSeed { s with len := BitVec.ofNat 64 len } := by
  rw [startStep_of_65_le hl, startSeed, beginCall_ok hf hb hl (le_maxLen hf) hr, ok_bind]
  rfl

theorem step_of_start {s : State} {w : Nat} (h : currentInput s = .start w) : step s = startStep w (takeInput s) := by
  rw [step_eq, h, inputStep]

/-- Settles O46: the step is a START of the word, which is HASH64 up to 64, the seed step above, and refused where the
call does not begin. -/
theorem stepRunsTheDecodedOperation : Obligations.StepRunsTheDecodedOperation := by
  unfold Obligations.StepRunsTheDecodedOperation
  intro s w hin
  rw [step_of_start hin]
  refine ⟨fun i hi hw => ?oneStep, fun i hi hw hb hr => ?seed, fun i hi hb => ?busy, fun i hi hb hr => ?bounds,
    fun he => ?lenRange⟩
  case oneStep => rw [startStep_of_le_64 hw, exec_of_decode hi]
  case seed =>
    have hf := lt_two_pow_lenW_of_decode hi
    exact ⟨Except.ok.inj (hi.symm.trans (decode_of_65_le hf hw)), startStep_seeds hw hf hb hr⟩
  case busy => exact startStep_refused (beginCall_busy (lt_two_pow_lenW_of_decode hi) hb)
  case bounds => exact startStep_refused (beginCall_outOfBounds (lt_two_pow_lenW_of_decode hi) hb hr)
  case lenRange => simp only [startStep, takeInput_params, he]

theorem currentInput_withFetchWord (s : State) (nbits w : Nat) : currentInput (s.withFetchWord nbits w) = .start w := rfl

/-- A placed word waits in a unit that can accept it. -/
theorem busyFlag_withFetchWord (s : State) (nbits w : Nat) : busyFlag (s.withFetchWord nbits w) = false := by
  rw [Bool.eq_false_iff, Ne, busyFlag_eq_true_iff, State.withFetchWord, presentWord_phase]
  split
  · simp
  · next hb => rwa [← busyFlag_eq_true_iff]

/-- Settles O47: the placed word is the input of the next step, which is that START. -/
theorem placedWordIsRunNext : Obligations.PlacedWordIsRunNext := by
  unfold Obligations.PlacedWordIsRunNext
  intro s nbits w i hi
  obtain ⟨hone, hseed, -⟩ := stepRunsTheDecodedOperation (s.withFetchWord nbits w) w (currentInput_withFetchWord s nbits w)
  have hb := busyFlag_withFetchWord s nbits w
  exact ⟨hb, rfl, hone i hi, fun hw hr => hseed i hi hw hb hr⟩

/-! ### No input -/

/-- Settles O48: with no input the step is the one of the unit's own phase. -/
theorem quietStepFollowsThePhase : Obligations.QuietStepFollowsThePhase := by
  unfold Obligations.QuietStepFollowsThePhase
  intro s hin
  rw [step_eq, hin, inputStep]
  refine ⟨?quiet, ?chunk, fun hp => ?final⟩
  case quiet => rintro (hp | hp) <;> simp only [autoStep, takeInput_phase, hp]
  case chunk => rintro (hp | hp) <;> simp only [autoStep, takeInput_phase, hp]
  case final => simp only [autoStep, takeInput_phase, hp]

/-! ### The host's actions -/

/-- Settles O49: the reset unit is IDLE over the same buffer, parameters and inputs to come. -/
theorem resetAbandonsTheCall : Obligations.ResetAbandonsTheCall := by
  unfold Obligations.ResetAbandonsTheCall
  intro s hin
  exact ⟨resetUnit (takeInput s), by rw [step_eq, hin, inputStep], rfl, rfl, rfl, rfl, rfl, rfl⟩

theorem step_of_write {s : State} {a : Nat} {b : Byte} (h : currentInput s = .write a b) :
    step s = changeBuffer a (writeByte a b s.buf) (takeInput s) := by
  rw [step_eq, h]
  rfl

theorem step_of_place {s : State} {bs : List Byte} (h : currentInput s = .place bs) :
    step s = changeBuffer 0 (placeBytes bs) (takeInput s) := by
  rw [step_eq, h]
  rfl

theorem step_of_readResult {s : State} (h : currentInput s = .readResult) : step s = readResult (takeInput s) := by
  rw [step_eq, h]
  rfl

theorem doneFlag_takeInput (s : State) : doneFlag (takeInput s) = doneFlag s := rfl

/-- Settles O50: outside a call the host changes its buffer freely; the flags are those of R19, and RESULT is read while
DONE = 1. -/
theorem hostActions : Obligations.HostActions := by
  unfold Obligations.HostActions
  intro s
  refine ⟨fun bs hin hb => ?place, fun a b hin hb => ?write, fun hin => ?busy, fun hin => ?done, fun hin hd => ?result,
    fun hin hd => ?noResult⟩
  case place => rw [step_of_place hin, changeBuffer_idle ((busyFlag_takeInput s).trans hb)]
  case write => rw [step_of_write hin, changeBuffer_idle ((busyFlag_takeInput s).trans hb)]
  case busy => exact ⟨busyFlag s, by rw [step_eq, hin]; rfl, busyFlag_eq_true_iff s⟩
  case done => exact ⟨doneFlag s, by rw [step_eq, hin]; rfl, doneFlag_eq_true_iff s⟩
  case result => rw [step_of_readResult hin, readResult, doneFlag_takeInput, hd]; rfl
  case noResult => rw [step_of_readResult hin, readResult, doneFlag_takeInput, hd]; rfl

/-- Settles O51: during a call `changeBuffer` refuses exactly what writes below x[LEN], and a placed buffer writes from
offset 0 up. -/
theorem theBufferDuringACall : Obligations.TheBufferDuringACall := by
  unfold Obligations.TheBufferDuringACall
  intro s hb
  refine ⟨fun a b hin => ?write, fun bs hin => ?place⟩
  case write =>
    rw [step_of_write hin]
    exact ⟨fun hlt => changeBuffer_refused hb hlt, fun hle => changeBuffer_beyond hle⟩
  case place =>
    rw [step_of_place hin]
    refine ⟨fun hne => changeBuffer_refused hb (Nat.pos_of_ne_zero fun hz => hne (BitVec.eq_of_toNat_eq hz)),
      fun hz => changeBuffer_beyond ?_⟩
    rw [takeInput_len, hz]
    rfl

end Sys2Proof.Machine
end

section
/-! A call left alone (spec/46_dispatcher.md R106, spec/60_exceptions.md R120): it takes the chunk steps that are left and
the finalize step, which is what H65P does as one operation. -/

namespace Sys2Proof.Machine

/-! ### One step of a call -/

/-- During a call the invariant says how many chunk steps are left. -/
theorem Inv.chunksLeft {s : State} (h : Inv s) (hb : busyFlag s = true) : ChunksLeft (s.rem.toNat / 64) s := by
  obtain ⟨hlong, hread, hsum, haligned, -, -, hlooped⟩ := h.call hb
  have hle := (nchunks_bounds (mode := s.params.chunkMode) hlong).2
  have hphase := (busyFlag_eq_true_iff s).mp hb
  exact {
    readable := hread
    rem := by omega
    inside := by omega
    enabled := fun hn => by
      have hne : s.phase ≠ .looped := fun hp => hn (by rw [hlooped.mp hp]; rfl)
      tauto
    ended := fun hn => hlooped.mpr (BitVec.eq_of_toNat_eq (show s.rem.toNat = 0 by omega)) }

theorem ChunksLeft.takeInput {n : Nat} {s : State} (h : ChunksLeft n s) : ChunksLeft n (takeInput s) := { h with }

theorem step_of_quiet {s : State} (h : currentInput s = .quiet) : step s = autoStep (takeInput s) := by
  rw [step_eq, h, inputStep]

/-- With a chunk left the unit takes the chunk step. -/
theorem ChunksLeft.autoStep_succ {n : Nat} {s : State} (h : ChunksLeft (n + 1) s) :
    autoStep s = toOutcome (chunkState s) := by
  obtain hp | hp := h.enabled n.succ_ne_zero <;> simp only [autoStep, hp] <;> rfl

/-- With none left it takes the finalize step. -/
theorem ChunksLeft.autoStep_zero {s : State} (h : ChunksLeft 0 s) : autoStep s = toOutcome (finalState s) := by
  simp only [autoStep, h.ended rfl]
  rfl

/-- Settles O55: the step that is next in the call, a chunk step or the finalize step, completes. -/
theorem aCallInProgressNeverSticks : Obligations.ACallInProgressNeverSticks := by
  unfold Obligations.ACallInProgressNeverSticks
  intro s hinv hb hin
  have hleft := (hinv.chunksLeft hb).takeInput
  rw [step_of_quiet hin]
  cases hn : s.rem.toNat / 64 with
  | zero =>
    rw [hn] at hleft
    exact ⟨_, by rw [hleft.autoStep_zero, finalState_of_looped (hleft.ended rfl), toOutcome]⟩
  | succ n =>
    rw [hn] at hleft
    obtain ⟨t, ht, -⟩ := chunkState_completes hleft
    exact ⟨t, by rw [hleft.autoStep_succ, ht, toOutcome]⟩

/-! ### A run of the rest of a call -/

theorem step_of_no_input {s : State} (h : s.inputs = []) : step s = autoStep s := by
  have htake : takeInput s = s := by
    cases s
    simp_all [takeInput]
  rw [step_of_quiet (by rw [currentInput, h]), htake]

theorem run_one (s : State) : Host.Core.run Sys2Proof.core 1 s = step s := by
  cases h : step s with
  | next t => rw [run_succ_of_next h]; rfl
  | refused r => exact run_succ_of_refused h
  | fault f =>
    simp only [Host.Core.run]
    rw [show Sys2Proof.core.step s = .fault f from h]
    rfl

theorem chunkLoop_succ (n : Nat) (s : State) : chunkLoop (n + 1) s = chunkState s >>= chunkLoop n := by
  rw [chunkLoop]
  cases chunkState s <;> rfl

/-- A unit left alone with `n` chunks to take ends after `n + 1` steps as the chunk loop and the finalize step do. -/
theorem run_eq_chunkLoop_finalState : ∀ {n : Nat} {s : State}, ChunksLeft n s → s.inputs = [] →
    Host.Core.run Sys2Proof.core (n + 1) s = toOutcome (chunkLoop n s >>= finalState)
  | 0, s, hleft, hin     => by rw [run_one, step_of_no_input hin, hleft.autoStep_zero]; rfl
  | n + 1, s, hleft, hin => by
    obtain ⟨t, ht, hleft'⟩ := chunkState_completes hleft
    have hstep : step s = .next t := by rw [step_of_no_input hin, hleft.autoStep_succ, ht, toOutcome]
    have hin' : t.inputs = [] := by rw [chunkState_frame ht]; exact hin
    rw [chunkLoop_succ, ht, ok_bind]
    exact (run_succ_of_next hstep).trans (run_eq_chunkLoop_finalState hleft' hin')

/-- Settles O56: the rest of the call is the chunk loop and the finalize step, which complete and leave BUF. -/
theorem aCallInProgressEnds : Obligations.ACallInProgressEnds := by
  unfold Obligations.ACallInProgressEnds
  intro s hinv hb hin
  have hleft := hinv.chunksLeft hb
  obtain ⟨u, hu, hp⟩ := chunkLoop_completes hleft
  have hend : toOutcome (chunkLoop (s.rem.toNat / 64) s >>= finalState) = .next (endCall (finalMix u.acc) u) := by
    rw [hu, ok_bind, finalState_of_looped hp, toOutcome]
  exact ⟨endCall (finalMix u.acc) u, (run_eq_chunkLoop_finalState hleft hin).trans hend, rfl,
    by rw [endCall_buf, chunkLoop_frame hu]⟩

/-! ### The sequenced call -/

theorem execH65p_eq_bind (len : Nat) (s : State) :
    execH65p len s =
      toOutcome (startSeed len s >>= fun t => chunkLoop (nchunks s.params.chunkMode len) t >>= finalState) := rfl

/-- The first step of a call within the contract leaves NCHUNKS(len) chunks to take. -/
theorem startSeed_chunksLeft {len : Nat} {s t : State} (h : startSeed len s = .ok t) :
    ChunksLeft (nchunks s.params.chunkMode len) t := by
  obtain ⟨s0, h0, h1⟩ := startSeed_cases h
  obtain ⟨hf, hb, hl, -, hr, rfl⟩ := beginCall_cases h0
  have hlen := toNat_ofNat_len hf
  obtain ⟨u, hu, hleft⟩ := seedState_completes (s := { s with len := BitVec.ofNat 64 len }) hb (hl.trans_eq hlen.symm)
    (hlen.trans_lt hf) (hlen.symm ▸ hr)
  obtain rfl := Except.ok.inj (hu.symm.trans h1)
  simpa only [hlen] using hleft

/-- Settles O57: up to 64 the START is HASH64; above, it is the first step of H65P, refused as H65P is, and the steps
after it are the chunk loop and the finalize step. -/
theorem sequencedCallIsThePublicFunction : Obligations.SequencedCallIsThePublicFunction := by
  unfold Obligations.SequencedCallIsThePublicFunction
  intro s len hin
  have hstart : step s = startStep len (takeInput s) := step_of_start (by rw [currentInput, hin])
  rw [exec_hash64]
  by_cases h64 : len ≤ 64
  · rw [if_pos h64, run_one, hstart, startStep_of_le_64 h64]
  · have hl : 65 ≤ len := by omega
    rw [if_neg h64, execHash64_of_65_le hl, execH65p_eq_bind]
    rw [startStep_of_65_le hl] at hstart
    cases hs : startSeed len (takeInput s) with
    | error r => exact run_succ_of_refused (hstart.trans (by rw [hs, toOutcome]))
    | ok t =>
      have hquiet : t.inputs = [] := by rw [startSeed_frame hs, takeInput_inputs, hin]; rfl
      exact (run_succ_of_next (hstart.trans (by rw [hs, toOutcome]))).trans
        (run_eq_chunkLoop_finalState (startSeed_chunksLeft (s := takeInput s) hs) hquiet)

end Sys2Proof.Machine
end

section
/-! What an operation does not see: the model's field `ok` (log entry 6), and the bytes at or beyond x[LEN]
(spec/20_memory.md R43, R51). -/

namespace Sys2Proof.Machine

/-! ### An outcome with its state changed -/

/-- The outcome with `f` applied to its next state, if it has one. -/
def mapNext (f : State → State) : Host.Outcome State Fault Refusal → Host.Outcome State Fault Refusal
  | .next t    => .next (f t)
  | .fault r   => .fault r
  | .refused r => .refused r

theorem mapNext_toOutcome (f : State → State) (e : Except Refusal State) :
    mapNext f (toOutcome e) = toOutcome (e.map f) := by
  cases e <;> rfl

theorem mapNext_refused_iff {f : State → State} {o : Host.Outcome State Fault Refusal} {r : Refusal} :
    mapNext f o = .refused r ↔ o = .refused r := by
  cases o <;> simp [mapNext]

theorem mapNext_fault_iff {f : State → State} {o : Host.Outcome State Fault Refusal} {r : Fault} :
    mapNext f o = .fault r ↔ o = .fault r := by
  cases o <;> simp [mapNext]

theorem mapNext_next_iff {f : State → State} {o : Host.Outcome State Fault Refusal} {t : State} :
    mapNext f o = .next t ↔ ∃ u, o = .next u ∧ f u = t := by
  cases o <;> simp [mapNext]

/-! ### The field `ok` -/

/-- The state with the delivered value taken out. -/
def forgetOk (s : State) : State := { s with ok := none }

/-- An operation that never reads `ok`: it makes no difference to its outcome but for `ok` itself. -/
def IgnoresOk (op : State → Host.Outcome State Fault Refusal) : Prop :=
  ∀ s, mapNext forgetOk (op (forgetOk s)) = mapNext forgetOk (op s)

/-- A part of a call neither reads `ok` nor writes it. -/
def KeepsOk (op : State → Except Refusal State) : Prop := ∀ s, op (forgetOk s) = (op s).map forgetOk

theorem KeepsOk.ignoresOk {op : State → Except Refusal State} (h : KeepsOk op) :
    IgnoresOk fun s => toOutcome (op s) := by
  intro s
  simp only [mapNext_toOutcome, h s]
  cases op s <;> rfl

theorem KeepsOk.bind {f g : State → Except Refusal State} (hf : KeepsOk f) (hg : KeepsOk g) :
    KeepsOk fun s => f s >>= g := by
  intro s
  simp only [hf s]
  cases f s with
  | error r => rfl
  | ok t => exact hg t

theorem sameInput_forgetOk (s : State) : SameInput (forgetOk s) s where
  bytes := fun _ _ => rfl
  chunkMode := rfl
  aBias := rfl
  len := rfl

theorem beginCall_keepsOk (lo hi len : Nat) : KeepsOk (beginCall lo hi len) := by
  intro s
  have hcheck : checkCall lo hi len (forgetOk s) = checkCall lo hi len s := rfl
  have hparams : (forgetOk s).params = s.params := rfl
  simp only [beginCall, hcheck, hparams]
  split
  · rfl
  · cases checkCall lo hi len s <;> rfl

theorem seedState_keepsOk : KeepsOk seedState := by
  intro s
  have hcheck : checkCall 65 (maxLen (forgetOk s)) (forgetOk s).len.toNat (forgetOk s) =
      checkCall 65 (maxLen s) s.len.toNat s := rfl
  simp only [seedState, hcheck, (sameInput_forgetOk s).seedAcc_eq]
  cases checkCall 65 (maxLen s) s.len.toNat s with
  | error r => rfl
  | ok _ => cases seedAcc s <;> rfl

theorem chunkState_keepsOk : KeepsOk chunkState := by
  intro s
  have henabled : chunkEnabled (forgetOk s) = chunkEnabled s := rfl
  simp only [chunkState, henabled, (sameInput_forgetOk s).chunkAcc_eq]
  split
  · have hpos : (forgetOk s).pos = s.pos := rfl
    have hacc : (forgetOk s).acc = s.acc := rfl
    simp only [hpos, hacc]
    cases chunkAcc s s.pos.toNat s.acc <;> rfl
  · rfl

theorem finalState_keepsOk : KeepsOk finalState := by
  intro s
  have hphase : (forgetOk s).phase = s.phase := rfl
  cases hp : s.phase <;> simp only [finalState, hphase, hp] <;> rfl

theorem chunkLoop_keepsOk : ∀ n, KeepsOk (chunkLoop n)
  | 0     => fun _ => rfl
  | n + 1 => by
    have h := chunkState_keepsOk.bind (chunkLoop_keepsOk n)
    simpa only [← chunkLoop_succ] using h

theorem startSeed_keepsOk (len : Nat) : KeepsOk (startSeed len) := by
  intro s
  exact (beginCall_keepsOk 65 (maxLen s) len).bind seedState_keepsOk s

theorem execH65p_ignoresOk (len : Nat) : IgnoresOk (execH65p len) := by
  intro s
  exact ((startSeed_keepsOk len).bind
    ((chunkLoop_keepsOk (nchunks s.params.chunkMode len)).bind finalState_keepsOk)).ignoresOk s

theorem Band.oneStepCall_ignoresOk {lo hi : Nat} {value : State → Except Refusal Word} (b : Band lo hi value) (len : Nat) :
    IgnoresOk (oneStepCall lo hi value len) := by
  intro s
  simp only [oneStepCall, beginCall_keepsOk lo hi len s]
  cases beginCall lo hi len s with
  | error r => rfl
  | ok t =>
    simp only [Except.map, (sameInput_forgetOk t).bandValue_eq b]
    cases value t <;> rfl

theorem execHash64_ignoresOk (len : Nat) : IgnoresOk (execHash64 len) := by
  by_cases h : len ≤ 64
  · obtain ⟨lo, hi, value, band, -, -, hroute⟩ := execHash64_eq_band h
    rw [funext hroute]
    exact band.oneStepCall_ignoresOk len
  · rw [funext (execHash64_of_65_le (by omega : 65 ≤ len))]
    exact execH65p_ignoresOk len

/-- Above the tier SMALL0TO16 refuses a call for the reason the tier's check gives. -/
theorem execSmall0to16_ignoresOk (len : Nat) : IgnoresOk (execSmall0to16 len) := by
  by_cases h : len ≤ 16
  · rw [← funext (execHash64_of_le_16 h)]
    exact execHash64_ignoresOk len
  · intro s
    have hbegin := beginCall_keepsOk 0 16 len s
    cases hc : beginCall 0 16 len s with
    | ok t => exact absurd (beginCall_cases hc).2.2.2.1 h
    | error r => rw [execSmall0to16_refused hc, execSmall0to16_refused (by rw [hbegin, hc]; rfl)]

theorem answer_ignoresOk {v : State → Except Refusal Value} (h : ∀ s, v (forgetOk s) = v s) :
    IgnoresOk fun s => answer (v s) s := by
  intro s
  simp only [h s]
  cases v s <;> rfl

theorem exec_ignoresOk (i : Instr) : IgnoresOk (exec i) := by
  cases i with
  | h0 len => exact Band.h0.oneStepCall_ignoresOk len
  | h1_3 len => exact Band.h1_3.oneStepCall_ignoresOk len
  | h4_7 len => exact Band.h4_7.oneStepCall_ignoresOk len
  | h8_16 len => exact Band.h8_16.oneStepCall_ignoresOk len
  | h17_32 len => exact Band.h17_32.oneStepCall_ignoresOk len
  | h33_64 len => exact Band.h33_64.oneStepCall_ignoresOk len
  | h65p len => exact execH65p_ignoresOk len
  | hash64 len => exact execHash64_ignoresOk len
  | small0to16 len => exact execSmall0to16_ignoresOk len
  | h65pSeed => exact seedState_keepsOk.ignoresOk
  | h65pChunk => exact chunkState_keepsOk.ignoresOk
  | h65pFinal => exact finalState_keepsOk.ignoresOk
  | rotr v k =>
    intro s
    simp only [exec_rotr, execRotr]
    split <;> rfl
  | fetch64 | fetch32 | fetch8 | loadBytes | weakHash32M => exact answer_ignoresOk fun _ => rfl
  | shiftMix | hashLen16M | hashLen16 | weakHash32 | bswap64 => exact fun _ => rfl

theorem startStep_ignoresOk (len : Nat) : IgnoresOk (startStep len) := by
  by_cases h : len ≤ 64
  · rw [funext (startStep_of_le_64 h)]
    exact execHash64_ignoresOk len
  · rw [funext (startStep_of_65_le (by omega : 65 ≤ len))]
    exact (startSeed_keepsOk len).ignoresOk

theorem autoStep_ignoresOk : IgnoresOk autoStep := by
  intro s
  have hphase : (forgetOk s).phase = s.phase := rfl
  cases hp : s.phase <;> simp only [autoStep, hphase, hp]
  case idle | done => rfl
  case seeded | loop => exact exec_ignoresOk .h65pChunk s
  case looped => exact exec_ignoresOk .h65pFinal s

theorem changeBuffer_ignoresOk (lowest : Nat) (m : Memory) : IgnoresOk (changeBuffer lowest m) := by
  intro s
  have hcond : (busyFlag (forgetOk s) && decide (lowest < (forgetOk s).len.toNat)) =
      (busyFlag s && decide (lowest < s.len.toNat)) := rfl
  simp only [changeBuffer, hcond]
  split <;> rfl

theorem readResult_ignoresOk : IgnoresOk readResult := by
  intro s
  have hdone : doneFlag (forgetOk s) = doneFlag s := rfl
  simp only [readResult, hdone]
  split <;> rfl

theorem inputStep_ignoresOk (h : HostInput) : IgnoresOk (inputStep h) := by
  cases h with
  | quiet => exact autoStep_ignoresOk
  | start len => exact startStep_ignoresOk len
  | place bs => exact changeBuffer_ignoresOk 0 (placeBytes bs)
  | write a b => exact fun s => changeBuffer_ignoresOk a (writeByte a b s.buf) s
  | readResult => exact readResult_ignoresOk
  | reset | readBusy | readDone => exact fun _ => rfl

theorem step_ignoresOk : IgnoresOk step := fun s => inputStep_ignoresOk (currentInput s) (takeInput s)

/-- What ignores `ok` has, from two states that differ in it alone, outcomes that differ in it alone. -/
theorem IgnoresOk.outcomes {op : State → Host.Outcome State Fault Refusal} (h : IgnoresOk op) (s : State)
    (v : Option Value) :
    (∀ t, op s = .next t → ∃ t', op { s with ok := v } = .next t' ∧ { t' with ok := none } = { t with ok := none }) ∧
    (∀ r, op s = .refused r → op { s with ok := v } = .refused r) ∧
    (∀ f, op s = .fault f → op { s with ok := v } = .fault f) := by
  have hsame : mapNext forgetOk (op { s with ok := v }) = mapNext forgetOk (op s) := (h { s with ok := v }).symm.trans (h s)
  refine ⟨fun t ht => ?next, fun r hr => ?refused, fun f hf => ?fault⟩
  case next =>
    rw [ht] at hsame
    exact mapNext_next_iff.mp hsame
  case refused =>
    rw [hr] at hsame
    exact mapNext_refused_iff.mp hsame
  case fault =>
    rw [hf] at hsame
    exact mapNext_fault_iff.mp hsame

/-- Settles O44: by `exec_ignoresOk` and `step_ignoresOk`. -/
theorem theDeliveredValueIsNeverRead : Obligations.TheDeliveredValueIsNeverRead := by
  unfold Obligations.TheDeliveredValueIsNeverRead
  refine ⟨fun i s v => ?_, step_ignoresOk.outcomes⟩
  obtain ⟨hnext, hrefused, -⟩ := (exec_ignoresOk i).outcomes s v
  exact ⟨hnext, hrefused⟩

/-! ### The bytes at or beyond x[LEN] -/

section Beyond

variable {s : State} {m : Memory} (h : ∀ a, a < s.len.toNat → readByte a m = readByte a s.buf)

theorem answer_withBuf (v : Except Refusal Value) (s : State) (m : Memory) :
    answer v { s with buf := m } = mapNext (fun t => { t with buf := m }) (answer v s) := by
  cases v <;> rfl

include h

/-- The unit over the other bytes has the same input. -/
theorem sameInput_withBuf : SameInput { s with buf := m } s where
  bytes := h
  chunkMode := rfl
  aBias := rfl
  len := rfl

theorem loadBytes_withBuf (off n : Nat) : loadBytes { s with buf := m } off n = loadBytes s off n := by
  simp only [loadBytes, (sameInput_withBuf h).loadNat_eq]

theorem chunkState_withBuf : chunkState { s with buf := m } = (chunkState s).map fun t => { t with buf := m } := by
  have henabled : chunkEnabled { s with buf := m } = chunkEnabled s := rfl
  simp only [chunkState, henabled, (sameInput_withBuf h).chunkAcc_eq]
  split
  · cases chunkAcc s s.pos.toNat s.acc <;> rfl
  · rfl

theorem exec_withBuf {i : Instr} (hcall : i.isCall = false) (hhash : ∀ len, i ≠ .hash64 len)
    (hsmall : ∀ len, i ≠ .small0to16 len) (hseed : i ≠ .h65pSeed) :
    exec i { s with buf := m } = mapNext (fun t => { t with buf := m }) (exec i s) := by
  have hin := sameInput_withBuf h
  cases i with
  | hash64 len => exact absurd rfl (hhash len)
  | small0to16 len => exact absurd rfl (hsmall len)
  | h65pSeed => exact absurd rfl hseed
  | h65pChunk => rw [exec_h65pChunk, execH65pChunk, chunkState_withBuf h, ← mapNext_toOutcome]; rfl
  | h65pFinal =>
    rw [exec_h65pFinal, exec_h65pFinal, execH65pFinal, execH65pFinal, mapNext_toOutcome]
    cases hp : s.phase <;> simp only [finalState, hp] <;> rfl
  | fetch64 off => rw [exec_fetch64, execFetch64, hin.fetch64_eq]; exact answer_withBuf _ s m
  | fetch32 off => rw [exec_fetch32, execFetch32, hin.fetch32_eq]; exact answer_withBuf _ s m
  | fetch8 off => rw [exec_fetch8, execFetch8, hin.fetch8_eq]; exact answer_withBuf _ s m
  | loadBytes off n => rw [exec_loadBytes, execLoadBytes, loadBytes_withBuf h]; exact answer_withBuf _ s m
  | weakHash32M off a b => rw [exec_weakHash32M, execWeakHash32M, hin.weakHash32M_eq]; exact answer_withBuf _ s m
  | rotr v k =>
    simp only [exec_rotr, execRotr]
    split <;> rfl
  | shiftMix | hashLen16M | hashLen16 | weakHash32 | bswap64 => rfl
  | _ => cases hcall

end Beyond

/-- Settles O45: the outcome over the other bytes is the outcome with the other bytes put in. -/
theorem bytesBeyondTheLengthAreNotSeen : Obligations.BytesBeyondTheLengthAreNotSeen := by
  unfold Obligations.BytesBeyondTheLengthAreNotSeen
  intro i s m hcall hhash hsmall hseed h
  rw [exec_withBuf h hcall hhash hsmall hseed]
  exact ⟨fun t ht => mapNext_next_iff.mpr ⟨t, ht, rfl⟩, fun r hr => mapNext_refused_iff.mpr hr⟩

end Sys2Proof.Machine
end

section
/-! The buffer and the loads against the statements' own reading of them: a load is the sum of spec/20_memory.md R33,
and it is refused where a byte is missing (R43). -/

namespace Sys2Proof.Machine

/-! ### The buffer -/

/-- Settles O5: by the laws of `placeBytes`. -/
theorem placedBytesAreTheBuffer : Obligations.PlacedBytesAreTheBuffer := by
  unfold Obligations.PlacedBytesAreTheBuffer
  exact fun bs => ⟨readByte_placeBytes bs, wf_placeBytes bs, extent_placeBytes bs⟩

/-- Settles O6: by the laws of `writeByte`. -/
theorem writtenByteIsReadBack : Obligations.WrittenByteIsReadBack := by
  unfold Obligations.WrittenByteIsReadBack
  exact fun _ _ _ hwf => ⟨readByte_writeByte_same, fun _ hne => readByte_writeByte_other hne, wf_writeByte hwf⟩

/-- Settles O7: `Readable` compares with `extent`, which in canonical form is the first offset without a byte. -/
theorem readableMeansEveryByteIsThere : Obligations.ReadableMeansEveryByteIsThere := by
  unfold Obligations.ReadableMeansEveryByteIsThere
  exact fun _ len hwf => le_extent_iff hwf len

/-! ### A load is the sum of R33 -/

theorem leNat_bytesAt_eq_load (m : Memory) (off n : Nat) : leNat (bytesAt m off n) = Ref.load m off n :=
  leNat_bytesAt m n off

theorem load_lt (m : Memory) (off n : Nat) : Ref.load m off n < 2 ^ (8 * n) := by
  rw [← leNat_bytesAt_eq_load, Nat.pow_mul]
  simpa [bytesAt] using leNat_lt (bytesAt m off n)

theorem load_one (m : Memory) (a : Nat) : Ref.load m a 1 = (Ref.byte m a).toNat := by
  simp [Ref.load]

@[simp] theorem wordAt_eq_word (m : Memory) (off : Nat) : wordAt m off = Ref.word m off := by
  rw [wordAt, leNat_bytesAt_eq_load, Ref.word]

@[simp] theorem halfAt_eq_ofNat_load (m : Memory) (off : Nat) : halfAt m off = BitVec.ofNat 32 (Ref.load m off 4) := by
  rw [halfAt, leNat_bytesAt_eq_load]

@[simp] theorem byteAt_eq_byte (m : Memory) (a : Nat) : byteAt m a = Ref.byte m a := rfl

theorem toNat_ofNat_load (m : Memory) (off n : Nat) : (BitVec.ofNat (8 * n) (Ref.load m off n)).toNat = Ref.load m off n := by
  rw [BitVec.toNat_ofNat, Nat.mod_eq_of_lt (load_lt m off n)]

/-- Settles O8: inside the length and the buffer each load answers the number of its bytes. -/
theorem loadsAnswerTheLittleEndianNumber : Obligations.LoadsAnswerTheLittleEndianNumber := by
  unfold Obligations.LoadsAnswerTheLittleEndianNumber
  intro s off hr
  refine ⟨fun hl => ?fetch64, fun hl => ?fetch32, fun hl => ?fetch8⟩
  case fetch64 => rw [exec_fetch64, execFetch64, fetch64_eq hl hr, wordAt_eq_word]; rfl
  case fetch32 => rw [exec_fetch32, execFetch32, fetch32_eq hl hr, halfAt_eq_ofNat_load]; rfl
  case fetch8 =>
    rw [exec_fetch8, execFetch8, fetch8_eq hl hr, byteAt_eq_byte, load_one, BitVec.ofNat_toNat, BitVec.setWidth_eq]
    rfl

/-! ### A load that answers -/

theorem loadNat_eq_load {s : State} {off n v : Nat} (h : loadNat s off n = .ok v) : v = Ref.load s.buf off n := by
  rw [(loadNat_ok h).2, leNat_bytesAt_eq_load]

theorem fetch64_ok {s : State} {off : Nat} {v : Word} (h : fetch64 s off = .ok v) :
    ∃ n, loadNat s off 8 = .ok n ∧ v = BitVec.ofNat 64 n := by
  simp only [fetch64] at h
  split at h
  · next n hn => exact ⟨n, hn, (Except.ok.inj h).symm⟩
  · cases h

theorem fetch32_ok {s : State} {off : Nat} {v : Half} (h : fetch32 s off = .ok v) :
    ∃ n, loadNat s off 4 = .ok n ∧ v = BitVec.ofNat 32 n := by
  simp only [fetch32] at h
  split at h
  · next n hn => exact ⟨n, hn, (Except.ok.inj h).symm⟩
  · cases h

theorem fetch8_ok {s : State} {off : Nat} {v : Byte} (h : fetch8 s off = .ok v) :
    ∃ n, loadNat s off 1 = .ok n ∧ v = BitVec.ofNat 8 n := by
  simp only [fetch8] at h
  split at h
  · next n hn => exact ⟨n, hn, (Except.ok.inj h).symm⟩
  · cases h

/-- Settles O9: a load that answers gives `Ref.load`, which is below `2 ^ (8 * n)`, so the register's width loses
nothing and widening adds nothing. -/
theorem loadedNumberFitsItsWidth : Obligations.LoadedNumberFitsItsWidth := by
  unfold Obligations.LoadedNumberFitsItsWidth
  intro s off
  refine ⟨fun n v hv => ?number, fun v hv => ?fetch64, fun v hv => ?fetch32, fun v hv => ?fetch8⟩
  case number =>
    obtain rfl := loadNat_eq_load hv
    exact ⟨rfl, load_lt s.buf off n⟩
  case fetch64 =>
    obtain ⟨n, hn, rfl⟩ := fetch64_ok hv
    obtain rfl := loadNat_eq_load hn
    exact toNat_ofNat_load s.buf off 8
  case fetch32 =>
    obtain ⟨n, hn, rfl⟩ := fetch32_ok hv
    obtain rfl := loadNat_eq_load hn
    have hload := toNat_ofNat_load s.buf off 4
    have hlt := load_lt s.buf off 4
    rw [BitVec.toNat_setWidth_of_le (by omega)]
    exact ⟨hload, hload.trans_lt hlt⟩
  case fetch8 =>
    obtain ⟨n, hn, rfl⟩ := fetch8_ok hv
    obtain rfl := loadNat_eq_load hn
    have hload := toNat_ofNat_load s.buf off 1
    have hlt := load_lt s.buf off 1
    rw [BitVec.toNat_setWidth_of_le (by omega)]
    exact ⟨hload, hload.trans_lt hlt⟩

/-! ### A load that needs a byte that is not there -/

/-- The bytes of a load are all there, or there is no answer. -/
theorem readByte_of_readBytes {m : Memory} : ∀ {n off : Nat} {bs : List Byte}, readBytes m off n = some bs →
    ∀ k < n, readByte (off + k) m ≠ none
  | 0, _, _, _, k, hk        => absurd hk (Nat.not_lt_zero k)
  | n + 1, off, bs, h, k, hk => by
    simp only [readBytes] at h
    split at h
    · next b cs hb hc =>
      cases k with
      | zero => simp [hb]
      | succ k =>
        rw [show off + (k + 1) = off + 1 + k by omega]
        exact readByte_of_readBytes hc k (by omega)
    · cases h

/-- The window of `n` bytes at `off` is inside x[LEN], and the buffer holds each of them. -/
def Loadable (s : State) (off n : Nat) : Prop := off + n ≤ s.len.toNat ∧ ∀ k < n, readByte (off + k) s.buf ≠ none

theorem loadable_of_loadNat {s : State} {off n v : Nat} (h : loadNat s off n = .ok v) : Loadable s off n := by
  refine ⟨(loadNat_ok h).1, ?_⟩
  simp only [loadNat, memRead, if_pos (loadNat_ok h).1] at h
  cases hb : readBytes s.buf off n with
  | none => simp [hb] at h
  | some bs => exact readByte_of_readBytes hb

theorem not_loadable_of_len_lt {s : State} {off n : Nat} (h : s.len.toNat < off + n) : ¬ Loadable s off n :=
  fun hw => absurd hw.1 (by omega)

theorem not_loadable_of_hole {s : State} {off n k : Nat} (hk : k < n) (h : readByte (off + k) s.buf = none) :
    ¬ Loadable s off n :=
  fun hw => hw.2 k hk h

theorem loadNat_of_not_loadable {s : State} {off n : Nat} (h : ¬ Loadable s off n) :
    loadNat s off n = .error .outOfBounds := by
  cases hv : loadNat s off n with
  | ok v => exact absurd (loadable_of_loadNat hv) h
  | error r => rw [loadNat_error hv]

theorem fetch64_of_not_loadable {s : State} {off : Nat} (h : ¬ Loadable s off 8) :
    fetch64 s off = .error .outOfBounds := by
  simp only [fetch64, loadNat_of_not_loadable h]

theorem fetch32_of_not_loadable {s : State} {off : Nat} (h : ¬ Loadable s off 4) :
    fetch32 s off = .error .outOfBounds := by
  simp only [fetch32, loadNat_of_not_loadable h]

theorem fetch8_of_not_loadable {s : State} {off : Nat} (h : ¬ Loadable s off 1) : fetch8 s off = .error .outOfBounds := by
  simp only [fetch8, loadNat_of_not_loadable h]

theorem loadBytes_of_not_loadable {s : State} {off n : Nat} (h0 : 0 < n) (h9 : n < 9) (h : ¬ Loadable s off n) :
    loadBytes s off n = .error .outOfBounds := by
  simp only [loadBytes, if_neg h0.ne', if_pos h9, loadNat_of_not_loadable h]

/-- A load answers, and then its window was loadable, or it is refused OutOfBounds. -/
theorem fetch64_loadable_or_refused (s : State) (off : Nat) :
    (∃ v, fetch64 s off = .ok v ∧ Loadable s off 8) ∨ fetch64 s off = .error .outOfBounds := by
  by_cases h : Loadable s off 8
  · cases hv : fetch64 s off with
    | ok v => exact .inl ⟨v, rfl, h⟩
    | error r =>
      simp only [fetch64] at hv
      split at hv
      · cases hv
      · next he =>
        cases hv
        exact .inr (by rw [loadNat_error he])
  · exact .inr (fetch64_of_not_loadable h)

/-- The window of four words, taken word by word. -/
theorem Loadable.window {s : State} {off : Nat} (h0 : Loadable s off 8) (h1 : Loadable s (off + 8) 8)
    (h2 : Loadable s (off + 16) 8) (h3 : Loadable s (off + 24) 8) : Loadable s off 32 := by
  refine ⟨h3.1, fun k hk => ?_⟩
  obtain h | h | h | h : k < 8 ∨ (8 ≤ k ∧ k < 16) ∨ (16 ≤ k ∧ k < 24) ∨ (24 ≤ k) := by omega
  · exact h0.2 k h
  · have := h1.2 (k - 8) (by omega)
    rwa [show off + 8 + (k - 8) = off + k by omega] at this
  · have := h2.2 (k - 16) (by omega)
    rwa [show off + 16 + (k - 16) = off + k by omega] at this
  · have := h3.2 (k - 24) (by omega)
    rwa [show off + 24 + (k - 24) = off + k by omega] at this

theorem weakHash32M_of_not_loadable {s : State} {off : Nat} {a b : Word} (h : ¬ Loadable s off 32) :
    weakHash32M s off a b = .error .outOfBounds := by
  obtain ⟨w, hw, lw⟩ | hw := fetch64_loadable_or_refused s off
  · obtain ⟨x, hx, lx⟩ | hx := fetch64_loadable_or_refused s (off + 8)
    · obtain ⟨y, hy, ly⟩ | hy := fetch64_loadable_or_refused s (off + 16)
      · obtain ⟨z, hz, lz⟩ | hz := fetch64_loadable_or_refused s (off + 24)
        · exact absurd (lw.window lx ly lz) h
        · simp only [weakHash32M, hw, hx, hy, hz, ok_bind, error_bind]
      · simp only [weakHash32M, hw, hx, hy, ok_bind, error_bind]
    · simp only [weakHash32M, hw, hx, ok_bind, error_bind]
  · simp only [weakHash32M, hw, error_bind]

/-- Settles O10: beyond x[LEN] or at a byte not held the window is not loadable, and each operation is refused. -/
theorem loadsOutsideAreRefused : Obligations.LoadsOutsideAreRefused := by
  unfold Obligations.LoadsOutsideAreRefused
  intro s off a b
  have h64 (h : ¬ Loadable s off 8) : exec (.fetch64 off) s = .refused .outOfBounds := by
    rw [exec_fetch64, execFetch64, fetch64_of_not_loadable h]; rfl
  have h32 (h : ¬ Loadable s off 4) : exec (.fetch32 off) s = .refused .outOfBounds := by
    rw [exec_fetch32, execFetch32, fetch32_of_not_loadable h]; rfl
  have h8 (h : ¬ Loadable s off 1) : exec (.fetch8 off) s = .refused .outOfBounds := by
    rw [exec_fetch8, execFetch8, fetch8_of_not_loadable h]; rfl
  have hweak (h : ¬ Loadable s off 32) : exec (.weakHash32M off a b) s = .refused .outOfBounds := by
    rw [exec_weakHash32M, execWeakHash32M, weakHash32M_of_not_loadable h]; rfl
  have hbytes {n : Nat} (h0 : 0 < n) (h9 : n < 9) (h : ¬ Loadable s off n) :
      exec (.loadBytes off n) s = .refused .outOfBounds := by
    rw [exec_loadBytes, execLoadBytes, loadBytes_of_not_loadable h0 h9 h]; rfl
  exact ⟨h64 ∘ not_loadable_of_len_lt, h32 ∘ not_loadable_of_len_lt, h8 ∘ not_loadable_of_len_lt,
    hweak ∘ not_loadable_of_len_lt, fun n h1 hn hl => hbytes h1 (by omega) (not_loadable_of_len_lt hl),
    fun k hk hh => h64 (not_loadable_of_hole hk hh), fun k hk hh => h32 (not_loadable_of_hole hk hh),
    fun hh => h8 (not_loadable_of_hole Nat.one_pos hh), fun k hk hh => hweak (not_loadable_of_hole hk hh),
    fun n k hn hk hh => hbytes (by omega) (by omega) (not_loadable_of_hole hk hh)⟩

/-! ### LOADBYTES -/

theorem loadBytes_eight (s : State) (off : Nat) : loadBytes s off 8 = fetch64 s off := by
  rw [loadBytes, if_neg (by omega), if_pos (by omega)]
  rfl

/-- Settles O11: 1 to 8 bytes are one load; no byte is the empty sum, and 9 or more are refused (R66). -/
theorem loadBytesPacksLittleEndian : Obligations.LoadBytesPacksLittleEndian := by
  unfold Obligations.LoadBytesPacksLittleEndian
  refine ⟨fun s off n hn hr hl => ?packs, fun s off => ?none, fun s off => ?eight, fun s off n hn => ?refused⟩
  case packs => rw [exec_loadBytes, execLoadBytes, loadBytes_eq hn hl hr, leNat_bytesAt_eq_load]; rfl
  case none => rw [exec_loadBytes, execLoadBytes, loadBytes_zero]; rfl
  case eight => rw [exec_loadBytes, execLoadBytes, loadBytes_eight]; rfl
  case refused =>
    rw [exec_loadBytes, execLoadBytes, loadBytes, if_neg (by omega), if_neg (by omega)]
    rfl

end Sys2Proof.Machine
end

section
/-! The mixing primitives against the statements' closed forms (spec/41_mixing_primitives.md R71 to R79), and the operands
derived from the length (spec/30_encoding.md R58, spec/45_rolling_engine_64plus.md R95). -/

namespace Sys2Proof.Machine

/-! ### ROTR (R73) -/

/-- Settles O12: bit by bit, `getLsbD_rotr`. -/
theorem rotateRightMovesTheBits : Obligations.RotateRightMovesTheBits := by
  unfold Obligations.RotateRightMovesTheBits
  refine ⟨fun s v k hk => ⟨rotr v k, ?_, fun h0 => by rw [h0]; rfl, fun i => getLsbD_rotr hk⟩, fun s v k hk => ?_⟩
  · rw [exec_rotr, execRotr, if_pos hk]
    rfl
  · rw [exec_rotr, execRotr, if_neg (by omega)]

/-! ### SHIFTMIX (R74) -/

/-- The shift as a quotient (R71). -/
theorem shiftMix_eq_fold47 (v : Word) : shiftMix v = Ref.fold47 v := by
  rw [shiftMix, Ref.fold47, ushiftRight_eq_ofNat]

theorem shiftMix_of_lt {v : Word} (h : v.toNat < 2 ^ 47) : shiftMix v = v := by
  have hz : v >>> 47 = 0 := BitVec.eq_of_toNat_eq (by
    rw [BitVec.toNat_ushiftRight, Nat.shiftRight_eq_div_pow, Nat.div_eq_of_lt h]; rfl)
  rw [shiftMix, hz]
  exact BitVec.xor_zero

/-- From bit 17 up the shifted word has no bit. -/
theorem getLsbD_shiftMix {v : Word} {i : Nat} (hi : 17 ≤ i) : (shiftMix v).getLsbD i = v.getLsbD i := by
  rw [shiftMix, BitVec.getLsbD_xor, BitVec.getLsbD_ushiftRight, BitVec.getLsbD_of_ge v (47 + i) (by omega), Bool.xor_false]

/-- Settles O13: `shiftMix` is the rule, and what is shifted down falls on the low 17 bits. -/
theorem shiftMixFoldsBitsDown : Obligations.ShiftMixFoldsBitsDown := by
  unfold Obligations.ShiftMixFoldsBitsDown
  exact ⟨fun s v => ⟨shiftMix v, rfl, rfl, shiftMix_of_lt, fun i hi _ => getLsbD_shiftMix hi⟩, by decide, by decide,
    by decide, by decide, by decide, by decide⟩

/-! ### HASHLEN16M and HASHLEN16 (R75, R76) -/

theorem hashLen16M_eq_shiftMix (u v m : Word) :
    hashLen16M u v m = shiftMix ((v ^^^ shiftMix ((u ^^^ v) * m)) * m) * m := rfl

theorem hashLen16M_eq_squeeze (u v m : Word) : hashLen16M u v m = Ref.squeeze u v m := by
  rw [hashLen16M_eq_shiftMix, shiftMix_eq_fold47, shiftMix_eq_fold47, Ref.squeeze]

theorem hashLen16_eq_squeeze (u v : Word) : hashLen16 u v = Ref.squeeze u v Ref.kMul :=
  hashLen16M_eq_squeeze u v Ref.kMul

theorem shiftMix_zero : shiftMix 0#64 = 0#64 := rfl

/-- Settles O14: the five steps are `Ref.squeeze`, and the corner cases are those of XOR and of the product. -/
theorem compressionOfTwoWords : Obligations.CompressionOfTwoWords := by
  unfold Obligations.CompressionOfTwoWords
  refine ⟨fun s u v m => ?closed, fun m => ?zeros, fun u v => ?noMul, fun u m => ?equal, fun u v => ?mulOne⟩
  case closed => rw [exec_hashLen16M, execHashLen16M, hashLen16M_eq_squeeze]; rfl
  case zeros => simp [hashLen16M_eq_shiftMix, shiftMix_zero]
  case noMul => simp [hashLen16M_eq_shiftMix]
  case equal => simp [hashLen16M_eq_shiftMix, shiftMix_zero]
  case mulOne => simp [hashLen16M_eq_shiftMix]

/-- Settles O15: HASHLEN16 is HASHLEN16M with KMUL. -/
theorem compressionWithTheFixedMultiplier : Obligations.CompressionWithTheFixedMultiplier := by
  unfold Obligations.CompressionWithTheFixedMultiplier
  intro s u v
  rw [exec_hashLen16, execHashLen16, hashLen16_eq_squeeze]
  rfl

/-! ### WEAKHASH32 (R77, R78) -/

theorem weakHash32_eq_weak (w x y z a b : Word) : weakHash32 w x y z a b = Ref.weak w x y z a b := by
  rw [weakHash32, Ref.weak]
  simp only [rotr_eq (show 21 < 64 by omega), rotr_eq (show 44 < 64 by omega)]
  rw [show b + (a + w) + z = b + a + w + z by ac_rfl]
  congr 1
  ac_rfl

/-- The weak hash of a window inside the buffer. -/
theorem weakHash32M_eq_weakAt {s : State} {off : Nat} {a b : Word} (hl : off + 32 ≤ s.len.toNat)
    (hr : s.len.toNat ≤ extent s.buf) : weakHash32M s off a b = .ok (Ref.weakAt s.buf off a b) := by
  simp only [weakHash32M_eq hl hr, weakHash32_eq_weak, wordAt_eq_word, Ref.weakAt]

/-- Settles O16: the six steps are the closed form, by reassociating sums. -/
theorem weakHashClosedForm : Obligations.WeakHashClosedForm := by
  unfold Obligations.WeakHashClosedForm
  intro s w x y z a b
  rw [exec_weakHash32, execWeakHash32, weakHash32_eq_weak]
  rfl

/-- Settles O17: the four words are those at `off`, `off + 8`, `off + 16` and `off + 24`. -/
theorem weakHashOfAWindow : Obligations.WeakHashOfAWindow := by
  unfold Obligations.WeakHashOfAWindow
  intro s off a b hr hl
  rw [exec_weakHash32M, execWeakHash32M, weakHash32M_eq_weakAt hl hr]
  rfl

/-! ### BSWAP64 (R79) -/

/-- A word is its eight bytes. -/
theorem eq_of_bytes_eq {u v : Word} (h : ∀ i < 8, u.extractLsb' (8 * i) 8 = v.extractLsb' (8 * i) 8) : u = v := by
  apply BitVec.eq_of_getLsbD_eq
  intro i hi
  have hbyte := congrArg (·.getLsbD (i % 8)) (h (i / 8) (by omega))
  simpa only [BitVec.getLsbD_extractLsb', Nat.mod_lt i (show 8 > 0 by omega), decide_true, Bool.true_and,
    Nat.div_add_mod] using hbyte

theorem bswap64_bswap64 (v : Word) : bswap64 (bswap64 v) = v := by
  refine eq_of_bytes_eq fun i hi => ?_
  rw [byte_bswap64 _ i hi, byte_bswap64 _ (7 - i) (by omega), show 7 - (7 - i) = i by omega]

/-- Settles O18: by `byte_bswap64` and `bswap64_bswap64`. -/
theorem byteReversal : Obligations.ByteReversal := by
  unfold Obligations.ByteReversal
  intro s v
  refine ⟨bswap64 v, rfl, byte_bswap64 v, ?_⟩
  rw [exec_bswap64, execBswap64, bswap64_bswap64]
  rfl

/-- Byte `i` of a number written as a sum of bytes (R33). -/
theorem byte_of_sum : ∀ {n i : Nat} (c : Nat → Nat), (∀ j, c j < 256) → i < n →
    (∑ j ∈ Finset.range n, c j * 2 ^ (8 * j)) / 2 ^ (8 * i) % 256 = c i
  | 0, _, _, _, hi      => absurd hi (Nat.not_lt_zero _)
  | n + 1, i, c, hc, hi => by
    have hsplit : ∑ j ∈ Finset.range (n + 1), c j * 2 ^ (8 * j) =
        256 * (∑ j ∈ Finset.range n, c (j + 1) * 2 ^ (8 * j)) + c 0 := by
      rw [Finset.sum_range_succ', Finset.mul_sum]
      congr 1
      · refine Finset.sum_congr rfl fun j _ => ?_
        rw [show 8 * (j + 1) = 8 * j + 8 by omega, Nat.pow_add]
        ring
      · simp
    have h0 := hc 0
    rw [hsplit]
    cases i with
    | zero =>
      rw [Nat.mul_zero, Nat.pow_zero, Nat.div_one]
      omega
    | succ i =>
      rw [show 8 * (i + 1) = 8 + 8 * i by omega, Nat.pow_add, ← Nat.div_div_eq_div_mul,
        show (256 * (∑ j ∈ Finset.range n, c (j + 1) * 2 ^ (8 * j)) + c 0) / 2 ^ 8 =
          ∑ j ∈ Finset.range n, c (j + 1) * 2 ^ (8 * j) by omega]
      exact byte_of_sum (fun j => c (j + 1)) (fun j => hc (j + 1)) (by omega)

theorem toNat_byte (v : Word) (i : Nat) : (v.extractLsb' (8 * i) 8).toNat = v.toNat / 2 ^ (8 * i) % 256 := by
  rw [BitVec.extractLsb'_toNat, Nat.shiftRight_eq_div_pow]

/-- The word's width loses no byte below the eighth. -/
theorem toNat_byte_ofNat (n : Nat) {i : Nat} (hi : i < 8) :
    ((BitVec.ofNat 64 n).extractLsb' (8 * i) 8).toNat = n / 2 ^ (8 * i) % 256 := by
  have hwidth : 2 ^ 64 = 2 ^ (8 * i) * 2 ^ (64 - 8 * i) := by rw [← Nat.pow_add]; congr 1; omega
  have hdvd : 256 ∣ 2 ^ (64 - 8 * i) := Nat.pow_dvd_pow 2 (show 8 ≤ 64 - 8 * i by omega)
  rw [toNat_byte, BitVec.toNat_ofNat, hwidth, Nat.mod_mul_right_div_self, Nat.mod_mod_of_dvd _ hdvd]

/-- The reversal is the sum of the bytes with their weights exchanged. -/
theorem bswap64_eq_reversed (v : Word) : bswap64 v = Ref.reversed v := by
  have hsum : ∑ i ∈ Finset.range 8, v.toNat / 2 ^ (8 * i) % 256 * 2 ^ (8 * (7 - i)) =
      ∑ j ∈ Finset.range 8, v.toNat / 2 ^ (8 * (7 - j)) % 256 * 2 ^ (8 * j) := by
    rw [← Finset.sum_range_reflect]
    refine Finset.sum_congr rfl fun j hj => ?_
    rw [show 7 - (8 - 1 - j) = j by have := Finset.mem_range.mp hj; omega]
  refine eq_of_bytes_eq fun i hi => BitVec.eq_of_toNat_eq ?_
  rw [byte_bswap64 v i hi, toNat_byte, Ref.reversed, toNat_byte_ofNat _ hi, hsum,
    byte_of_sum (fun j => v.toNat / 2 ^ (8 * (7 - j)) % 256) (fun j => Nat.mod_lt _ (by omega)) hi]

/-! ### The operands derived from the length (R58, R95) -/

theorem toNat_mul (len : Word) : (mul len).toNat = (0x9ae16a3b2f90404f + 2 * len.toNat) % 2 ^ 64 := by
  simp only [mul, K2, BitVec.ofNat_eq_ofNat, BitVec.toNat_add, BitVec.toNat_mul, BitVec.toNat_ofNat]
  omega

/-- Settles O19: `toNat_mul`, whose constant is odd and far enough below 2^64. -/
theorem lengthMultiplier : Obligations.LengthMultiplier := by
  unfold Obligations.LengthMultiplier
  intro len
  have h := toNat_mul len
  exact ⟨h, by omega, by omega⟩

theorem mul_eq_multiplier (len : Word) : mul len = Ref.multiplier len.toNat := by
  apply BitVec.eq_of_toNat_eq
  rw [toNat_mul, Ref.multiplier, BitVec.toNat_ofNat]

theorem nchunks_eq_chunks (mode : ChunkMode) (len : Nat) : nchunks mode len = Ref.chunks mode len := by
  cases mode <;> rfl

/-- Settles O20: the two quotients of R95. -/
theorem chunkCountBounds : Obligations.ChunkCountBounds := by
  unfold Obligations.ChunkCountBounds
  intro len hl
  refine ⟨fun mode => ?_, ?_⟩
  · obtain ⟨hpos, hle⟩ := nchunks_bounds (mode := mode) hl
    refine ⟨hpos, hle, ?_⟩
    cases mode <;> simp only [nchunks] <;> omega
  · simp only [nchunks]
    split <;> omega

end Sys2Proof.Machine
end

section
/-! The bands of one step against the statements' closed forms (spec/42_small_hash_0to16.md,
spec/43_small_hash_17to32.md, spec/44_small_hash_33to64.md): each circuit is the public function on its band. -/

namespace Sys2Proof.Machine

/-! ### The constants of R7 -/

theorem K0_eq_k0 : K0 = Ref.k0 := rfl
theorem K1_eq_k1 : K1 = Ref.k1 := rfl
theorem K2_eq_k2 : K2 = Ref.k2 := rfl

/-! ### Widening the narrow loads (R39, R72) -/

/-- The first 32-bit sum of band 1 to 3 does not wrap (R82). -/
theorem setWidth_sum_of_bytes (a b : Byte) :
    (a.setWidth 32 + b.setWidth 32 <<< 8).setWidth 64 = BitVec.ofNat 64 (a.toNat + 256 * b.toNat) := by
  have ha := a.isLt
  have hb := b.isLt
  apply BitVec.eq_of_toNat_eq
  simp only [BitVec.toNat_setWidth, BitVec.toNat_add, BitVec.toNat_shiftLeft, Nat.shiftLeft_eq, BitVec.toNat_ofNat]
  omega

/-- Nor does the second, whose length is at most 3. -/
theorem setWidth_sum_of_len {len : Word} (h : len.toNat ≤ 3) (c : Byte) :
    (len.setWidth 32 + c.setWidth 32 <<< 2).setWidth 64 = BitVec.ofNat 64 (len.toNat + 4 * c.toNat) := by
  have hc := c.isLt
  apply BitVec.eq_of_toNat_eq
  simp only [BitVec.toNat_setWidth, BitVec.toNat_add, BitVec.toNat_shiftLeft, Nat.shiftLeft_eq, BitVec.toNat_ofNat]
  omega

theorem setWidth_half (m : Memory) (off : Nat) :
    (BitVec.ofNat 32 (Ref.load m off 4)).setWidth 64 = BitVec.ofNat 64 (Ref.load m off 4) := by
  have hlt := load_lt m off 4
  apply BitVec.eq_of_toNat_eq
  simp only [BitVec.toNat_setWidth, BitVec.toNat_ofNat]
  omega

/-! ### The value of each circuit -/

section Values

variable {s : State} (hr : s.len.toNat ≤ extent s.buf)
include hr

theorem h1_3Value_eq (hl : 1 ≤ s.len.toNat) (hh : s.len.toNat ≤ 3) :
    h1_3Value s = .ok (Ref.band1to3 s.buf s.len.toNat) := by
  simp (disch := omega) only [h1_3Value, fetch8_eq, ok_bind, byteAt_eq_byte, setWidth_sum_of_bytes, setWidth_sum_of_len hh,
    shiftMix_eq_fold47, K0_eq_k0, K2_eq_k2]
  rfl

theorem h4_7Value_eq (hl : 4 ≤ s.len.toNat) : h4_7Value s = .ok (Ref.band4to7 s.buf s.len.toNat) := by
  have hfirst := weighted_first_word s.len.toNat (Ref.load s.buf 0 4)
  rw [BitVec.ofNat_toNat, BitVec.setWidth_eq] at hfirst
  simp (disch := omega) only [h4_7Value, fetch32_eq, ok_bind, halfAt_eq_ofNat_load, setWidth_half, hfirst,
    hashLen16M_eq_squeeze, mul_eq_multiplier]
  rfl

theorem h8_16Value_eq (hl : 8 ≤ s.len.toNat) :
    h8_16Value s = .ok (Ref.band8to16 s.params.aBias s.buf s.len.toNat) := by
  simp (disch := omega) only [h8_16Value, fetch64_eq, ok_bind, wordAt_eq_word, rotr_eq, hashLen16M_eq_squeeze,
    mul_eq_multiplier]
  cases hbias : s.params.aBias <;> rfl

theorem h17_32Value_eq (hl : 17 ≤ s.len.toNat) : h17_32Value s = .ok (Ref.band17to32 s.buf s.len.toNat) := by
  simp (disch := omega) only [h17_32Value, fetch64_eq, ok_bind, wordAt_eq_word, rotr_eq, hashLen16M_eq_squeeze,
    mul_eq_multiplier, K1_eq_k1, K2_eq_k2]
  rfl

theorem h33_64Value_eq (hl : 33 ≤ s.len.toNat) : h33_64Value s = .ok (Ref.band33to64 s.buf s.len.toNat) := by
  simp (disch := omega) only [h33_64Value, fetch64_eq, ok_bind, wordAt_eq_word, rotr_eq, mul_eq_multiplier,
    bswap64_eq_reversed, shiftMix_eq_fold47, K2_eq_k2]
  rfl

end Values

/-! ### The public function on each band (R80, R103) -/

section Hash64

variable {p : Params} {m : Memory} {len : Nat}

theorem hash64_of_1_to_3 (hl : 1 ≤ len) (hh : len ≤ 3) : Ref.hash64 p m len = Ref.band1to3 m len := by
  rw [Ref.hash64, if_neg (by omega), if_pos hh]

theorem hash64_of_4_to_7 (hl : 4 ≤ len) (hh : len ≤ 7) : Ref.hash64 p m len = Ref.band4to7 m len := by
  rw [Ref.hash64, if_neg (by omega), if_neg (by omega), if_pos hh]

theorem hash64_of_8_to_16 (hl : 8 ≤ len) (hh : len ≤ 16) : Ref.hash64 p m len = Ref.band8to16 p.aBias m len := by
  rw [Ref.hash64, if_neg (by omega), if_neg (by omega), if_neg (by omega), if_pos hh]

theorem hash64_of_17_to_32 (hl : 17 ≤ len) (hh : len ≤ 32) : Ref.hash64 p m len = Ref.band17to32 m len := by
  rw [Ref.hash64, if_neg (by omega), if_neg (by omega), if_neg (by omega), if_neg (by omega), if_pos hh]

theorem hash64_of_33_to_64 (hl : 33 ≤ len) (hh : len ≤ 64) : Ref.hash64 p m len = Ref.band33to64 m len := by
  rw [Ref.hash64, if_neg (by omega), if_neg (by omega), if_neg (by omega), if_neg (by omega), if_neg (by omega), if_pos hh]

theorem hash64_of_65_le (hl : 65 ≤ len) :
    Ref.hash64 p m len = Ref.combine (Ref.afterChunks m len (Ref.chunks p.chunkMode len)) := by
  rw [Ref.hash64, if_neg (by omega), if_neg (by omega), if_neg (by omega), if_neg (by omega), if_neg (by omega),
    if_neg (by omega)]

end Hash64

/-! ### The bands -/

section Bands

variable {lo hi len : Nat} {value : State → Except Refusal Word} {s : State} (b : Band lo hi value)
include b

theorem Band.hi_le_64 : hi ≤ 64 := by
  cases b <;> omega

theorem Band.value_eq_hash64 (hl : lo ≤ s.len.toNat) (hh : s.len.toNat ≤ hi) (hr : Readable s.len.toNat s) :
    value s = .ok (Ref.hash64 s.params s.buf s.len.toNat) := by
  cases b with
  | h0 => rw [show s.len.toNat = 0 by omega]; rfl
  | h1_3 => rw [h1_3Value_eq hr hl hh, hash64_of_1_to_3 hl hh]
  | h4_7 => rw [h4_7Value_eq hr hl, hash64_of_4_to_7 hl hh]
  | h8_16 => rw [h8_16Value_eq hr hl, hash64_of_8_to_16 hl hh]
  | h17_32 => rw [h17_32Value_eq hr hl, hash64_of_17_to_32 hl hh]
  | h33_64 => rw [h33_64Value_eq hr hl, hash64_of_33_to_64 hl hh]

/-- A call of a length of the band, over a readable buffer, ends with the public function as RESULT, and only LEN, RESULT
and PHASE are written. -/
theorem Band.oneStepCall_eq_hash64 (hb : busyFlag s = false) (hl : lo ≤ len) (hh : len ≤ hi) (hr : Readable len s) :
    oneStepCall lo hi value len s =
      .next { s with len := BitVec.ofNat 64 len, result := Ref.hash64 s.params s.buf len, phase := .done } := by
  have hf : len < 2 ^ s.params.lenW := lt_two_pow_lenW (by have := b.hi_le_64; omega)
  have hlen : (BitVec.ofNat 64 len).toNat = len := toNat_ofNat_len hf
  have hvalue := b.value_eq_hash64 (s := { s with len := BitVec.ofNat 64 len }) (hl.trans_eq hlen.symm)
    (hlen.trans_le hh) (hlen.symm ▸ hr)
  simp only [hlen] at hvalue
  exact oneStepCall_eq hf hb hl hh hr hvalue

end Bands

/-- Settles O22: H1_3 is the public function on 1 to 3. -/
theorem bandOneToThreeCompletes : Obligations.BandOneToThreeCompletes := by
  unfold Obligations.BandOneToThreeCompletes
  intro s len hb hl hh hr
  rw [← hash64_of_1_to_3 hl hh]
  exact Band.h1_3.oneStepCall_eq_hash64 hb hl hh hr

/-- Settles O23: H4_7 is the public function on 4 to 7. -/
theorem bandFourToSevenCompletes : Obligations.BandFourToSevenCompletes := by
  unfold Obligations.BandFourToSevenCompletes
  intro s len hb hl hh hr
  rw [← hash64_of_4_to_7 hl hh]
  exact Band.h4_7.oneStepCall_eq_hash64 hb hl hh hr

/-- Settles O24: H8_16 is the public function on 8 to 16. -/
theorem bandEightToSixteenCompletes : Obligations.BandEightToSixteenCompletes := by
  unfold Obligations.BandEightToSixteenCompletes
  intro s len hb hl hh hr
  rw [← hash64_of_8_to_16 hl hh]
  exact Band.h8_16.oneStepCall_eq_hash64 hb hl hh hr

/-- Settles O25: H17_32 is the public function on 17 to 32. -/
theorem bandSeventeenToThirtyTwoCompletes : Obligations.BandSeventeenToThirtyTwoCompletes := by
  unfold Obligations.BandSeventeenToThirtyTwoCompletes
  intro s len hb hl hh hr
  rw [← hash64_of_17_to_32 hl hh]
  exact Band.h17_32.oneStepCall_eq_hash64 hb hl hh hr

/-- Settles O26: H33_64 is the public function on 33 to 64. -/
theorem bandThirtyThreeToSixtyFourCompletes : Obligations.BandThirtyThreeToSixtyFourCompletes := by
  unfold Obligations.BandThirtyThreeToSixtyFourCompletes
  intro s len hb hl hh hr
  rw [← hash64_of_33_to_64 hl hh]
  exact Band.h33_64.oneStepCall_eq_hash64 hb hl hh hr

theorem execHash64_of_le_64 {len : Nat} {s : State} (hh : len ≤ 64) (hb : busyFlag s = false) (hr : Readable len s) :
    execHash64 len s =
      .next { s with len := BitVec.ofNat 64 len, result := Ref.hash64 s.params s.buf len, phase := .done } := by
  obtain ⟨lo, hi, value, band, hlo, hhi, hroute⟩ := execHash64_eq_band hh
  rw [hroute]
  exact band.oneStepCall_eq_hash64 hb hlo hhi hr

/-- Settles O28: up to 16 SMALL0TO16 is HASH64, which is the call of the band that holds the length. -/
theorem smallTierCompletes : Obligations.SmallTierCompletes := by
  unfold Obligations.SmallTierCompletes
  intro s len hb hh hr
  rw [exec_small0to16, ← execHash64_of_le_16 hh]
  exact execHash64_of_le_64 (by omega) hb hr

end Sys2Proof.Machine
end

section
/-! The large engine against the statements' fold over its chunks (spec/45_rolling_engine_64plus.md), and the public
function on every length (spec/46_dispatcher.md R103, R104). -/

namespace Sys2Proof.Machine

/-! ### The three steps -/

theorem seedAcc_eq_seed {s : State} (hl : 65 ≤ s.len.toNat) (hr : s.len.toNat ≤ extent s.buf) :
    seedAcc s = .ok (Ref.seed s.buf s.len.toNat) := by
  have hlen : Ref.lenWord s.len.toNat = s.len := by rw [Ref.lenWord, BitVec.ofNat_toNat, BitVec.setWidth_eq]
  simp (disch := omega) only [seedAcc, fetch64_eq, weakHash32M_eq_weakAt, ok_bind, wordAt_eq_word, hashLen16_eq_squeeze,
    K1_eq_k1, Ref.seed, hlen]
  rfl

theorem chunkAcc_eq_chunk {s : State} {p : Nat} (r : Acc) (hp : p + 64 ≤ s.len.toNat) (hr : s.len.toNat ≤ extent s.buf) :
    chunkAcc s p r = .ok (Ref.chunk s.buf p r) := by
  simp (disch := omega) only [chunkAcc, fetch64_eq, weakHash32M_eq_weakAt, ok_bind, wordAt_eq_word, rotr_eq, K1_eq_k1]
  rfl

theorem finalMix_eq_combine (r : Acc) : finalMix r = Ref.combine r := by
  simp only [finalMix, hashLen16_eq_squeeze, shiftMix_eq_fold47, K1_eq_k1, Ref.combine]

theorem seedState_eq {s : State} (hb : busyFlag s = false) (hl : 65 ≤ s.len.toNat)
    (hf : s.len.toNat < 2 ^ s.params.lenW) (hr : Readable s.len.toNat s) :
    seedState s = .ok { s with
      acc := Ref.seed s.buf s.len.toNat, pos := 0,
      rem := BitVec.ofNat 64 (64 * Ref.chunks s.params.chunkMode s.len.toNat), phase := .seeded } := by
  have hc : checkCall 65 (maxLen s) s.len.toNat s = .ok () := checkCall_ok hb hl (le_maxLen hf) hr
  simp only [seedState, hc, seedAcc_eq_seed hl hr, ok_bind, nchunks_eq_chunks]
  rfl

/-- Settles O29: the seed step's check passes, and its accumulators are those of R94. -/
theorem seedStepCompletes : Obligations.SeedStepCompletes := by
  unfold Obligations.SeedStepCompletes
  intro s hb hl hf hr
  rw [exec_h65pSeed, execH65pSeed, seedState_eq hb hl hf hr, toOutcome]

theorem chunkState_eq {s : State} (hphase : s.phase = .seeded ∨ s.phase = .loop) (hrem : 64 ≤ s.rem.toNat)
    (hp : s.pos.toNat + 64 ≤ s.len.toNat) (hr : Readable s.len.toNat s) :
    chunkState s = .ok { s with
      acc := Ref.chunk s.buf s.pos.toNat s.acc, pos := s.pos + 64, rem := s.rem - 64,
      phase := if s.rem = 64 then .looped else .loop } := by
  have henabled : chunkEnabled s = true := (chunkEnabled_iff s).mpr ⟨hphase, hrem⟩
  have hpos : BitVec.ofNat 64 (s.pos.toNat + 64) = s.pos + 64 := BitVec.eq_of_toNat_eq (by
    rw [BitVec.toNat_ofNat, BitVec.toNat_add]; rfl)
  have hsub : BitVec.ofNat 64 (s.rem.toNat - 64) = s.rem - 64 := by bv_omega
  have hlast : s.rem.toNat - 64 = 0 ↔ s.rem = 64 := by bv_omega
  simp only [chunkState, henabled, if_true, chunkAcc_eq_chunk s.acc hp hr, ok_bind, hpos, hsub, hlast]
  rfl

/-- Settles O30: the chunk step is enabled, and neither POS nor REM wraps. -/
theorem chunkStepCompletes : Obligations.ChunkStepCompletes := by
  unfold Obligations.ChunkStepCompletes
  intro s hphase hrem hp hr
  rw [exec_h65pChunk, execH65pChunk, chunkState_eq hphase hrem hp hr, toOutcome]

/-- Settles O31: in LOOPED the finalize step is enabled, and its value is that of R99. -/
theorem finalStepCompletes : Obligations.FinalStepCompletes := by
  unfold Obligations.FinalStepCompletes
  intro s hphase
  rw [exec_h65pFinal, execH65pFinal, finalState_of_looped hphase, toOutcome, finalMix_eq_combine]
  rfl

/-! ### The chunk loop as a fold (R100) -/

theorem afterChunks_succ (m : Memory) (len k : Nat) :
    Ref.afterChunks m len (k + 1) = Ref.chunk m (64 * k) (Ref.afterChunks m len k) := by
  rw [Ref.afterChunks, List.range_succ, List.foldl_append]
  rfl

/-- The unit has taken the first `k` chunks of its call. -/
structure Absorbed (k : Nat) (s : State) : Prop where
  acc : s.acc = Ref.afterChunks s.buf s.len.toNat k
  pos : s.pos.toNat = 64 * k

/-- A chunk step takes the next chunk. -/
theorem Absorbed.after_chunkState {k n : Nat} {s t : State} (h : Absorbed k s) (hleft : ChunksLeft (n + 1) s)
    (hr : chunkState s = .ok t) : Absorbed (k + 1) t := by
  have hin := hleft.inside
  have hlt := s.len.isLt
  have hpos := h.pos
  obtain ⟨-, -, a, ha, rfl⟩ := chunkState_cases hr
  rw [chunkAcc_eq_chunk s.acc (by omega) hleft.readable] at ha
  exact {
    acc := by rw [← Except.ok.inj ha, hpos, h.acc, afterChunks_succ]
    pos := by simp only [BitVec.toNat_ofNat]; omega }

theorem Absorbed.after_chunkLoop {n k : Nat} {s t : State} (h : Absorbed k s) (hleft : ChunksLeft n s)
    (hr : chunkLoop n s = .ok t) : Absorbed (k + n) t ∧ ChunksLeft 0 t := by
  induction n generalizing k s with
  | zero =>
    obtain rfl := Except.ok.inj hr
    exact ⟨h, hleft⟩
  | succ n ih =>
    obtain ⟨u, hu, hn⟩ := chunkLoop_succ_ok.mp hr
    obtain ⟨u', hu', hleft'⟩ := chunkState_completes hleft
    obtain rfl := Except.ok.inj (hu.symm.trans hu')
    rw [show k + (n + 1) = k + 1 + n by omega]
    exact ih (h.after_chunkState hleft hu) hleft' hn

/-- The first step of a call takes no chunk yet. -/
theorem absorbed_of_startSeed {len : Nat} {s t : State} (h : startSeed len s = .ok t) : Absorbed 0 t := by
  obtain ⟨s0, -, h1⟩ := startSeed_cases h
  obtain ⟨-, hl, hr, a, ha, rfl⟩ := seedState_cases h1
  rw [seedAcc_eq_seed hl hr] at ha
  exact { acc := (Except.ok.inj ha).symm, pos := rfl }

/-- Where the whole of H65P leaves the registers it writes. -/
theorem execH65p_registers {len : Nat} {s t : State} (h : execH65p len s = .next t) :
    t.len = BitVec.ofNat 64 len ∧ t.acc = Ref.afterChunks s.buf len (Ref.chunks s.params.chunkMode len) ∧
      t.pos = BitVec.ofNat 64 (64 * Ref.chunks s.params.chunkMode len) ∧ t.rem = 0 ∧ t.result = Ref.combine t.acc := by
  obtain ⟨s0, s1, s2, h0, h1, h2, h3⟩ := execH65p_cases h
  have hseed : startSeed len s = .ok s1 := by rw [startSeed, h0, ok_bind, h1]
  obtain ⟨habsorbed, hleft⟩ := (absorbed_of_startSeed hseed).after_chunkLoop (startSeed_chunksLeft hseed) h2
  rw [Nat.zero_add, nchunks_eq_chunks] at habsorbed
  obtain ⟨hf, -, -, -, -, rfl⟩ := beginCall_cases h0
  have hbuf : s2.buf = s.buf := by rw [chunkLoop_frame h2, seedState_frame h1]
  have hlen : s2.len = BitVec.ofNat 64 len := by rw [chunkLoop_frame h2, seedState_frame h1]
  have hacc := habsorbed.acc
  rw [hbuf, show s2.len.toNat = len by rw [hlen, toNat_ofNat_len hf]] at hacc
  have hpos : s2.pos = BitVec.ofNat 64 (64 * Ref.chunks s.params.chunkMode len) := by
    rw [← habsorbed.pos, BitVec.ofNat_toNat, BitVec.setWidth_eq]
  have hrem : s2.rem = 0 := by
    have hz := hleft.rem
    bv_omega
  have hresult : t.result = Ref.combine s2.acc := by
    rw [(finalState_cases h3).2, endCall_result, finalMix_eq_combine]
  rw [finalState_frame h3]
  exact ⟨hlen, hacc, hpos, hrem, hresult⟩

/-- Settles O32: within the contract H65P completes; `execH65p_frame` says which registers it writes, and
`execH65p_registers` what it writes to them. -/
theorem largeEngineCompletes : Obligations.LargeEngineCompletes := by
  unfold Obligations.LargeEngineCompletes
  intro s len hb hl hf hr
  obtain ⟨t, ht⟩ := execH65p_completes hb hf hr hl
  obtain ⟨hlen, hacc, hpos, hrem, hresult⟩ := execH65p_registers ht
  rw [exec_h65p, ht, execH65p_frame ht, hresult, hlen, hacc, hpos, hrem]

/-! ### The public function -/

/-- Within the contract HASH64 ends with the public function as RESULT, over the same buffer. -/
theorem execHash64_eq_hash64 {len : Nat} {s : State} (hb : busyFlag s = false) (hf : len < 2 ^ s.params.lenW)
    (hr : Readable len s) :
    ∃ t, execHash64 len s = .next t ∧ t.result = Ref.hash64 s.params s.buf len ∧ t.phase = .done ∧
      t.len = BitVec.ofNat 64 len ∧ t.buf = s.buf := by
  by_cases h64 : len ≤ 64
  · exact ⟨_, execHash64_of_le_64 h64 hb hr, rfl, rfl, rfl, rfl⟩
  · have hl : 65 ≤ len := by omega
    rw [execHash64_of_65_le hl, hash64_of_65_le hl]
    exact ⟨_, largeEngineCompletes s len hb hl hf hr, rfl, rfl, rfl, rfl⟩

/-- Settles O33: by `execHash64_eq_hash64`. -/
theorem publicFunctionIsTotalAndCorrect : Obligations.PublicFunctionIsTotalAndCorrect := by
  unfold Obligations.PublicFunctionIsTotalAndCorrect
  intro s len hb hf hr
  obtain ⟨t, ht, hresult, hdone, hlen, hbuf⟩ := execHash64_eq_hash64 hb hf hr
  exact ⟨t, ht, hresult, (doneFlag_eq_true_iff t).mpr hdone, by rw [hlen, toNat_ofNat_len hf], hbuf⟩

/-- Off the multiples of 64 the two chunk counts are one, and below 65 there is no chunk (R95). -/
theorem hash64_chunkMode_irrelevant {len : Nat} (h : len % 64 ≠ 0 ∨ len < 128) (p : Params) (m : Memory) :
    Ref.hash64 { p with chunkMode := .floorLen } m len = Ref.hash64 { p with chunkMode := .floorLenMinus1 } m len := by
  by_cases h64 : len ≤ 64
  · simp only [Ref.hash64, if_pos h64]
  · have hcount : Ref.chunks .floorLen len = Ref.chunks .floorLenMinus1 len := by
      simp only [Ref.chunks]
      omega
    rw [hash64_of_65_le (by omega), hash64_of_65_le (by omega), hcount]

/-- Settles O39: under both modes RESULT is the public function, which is one function off the multiples of 64. -/
theorem chunkModesAgreeOffTheMultiples : Obligations.ChunkModesAgreeOffTheMultiples := by
  unfold Obligations.ChunkModesAgreeOffTheMultiples
  intro s len hb hf hr h
  obtain ⟨t₁, ht₁, hresult₁, -⟩ :=
    execHash64_eq_hash64 (s := { s with params := { s.params with chunkMode := .floorLen } }) hb hf hr
  obtain ⟨t₂, ht₂, hresult₂, -⟩ :=
    execHash64_eq_hash64 (s := { s with params := { s.params with chunkMode := .floorLenMinus1 } }) hb hf hr
  exact ⟨t₁, t₂, ht₁, ht₂, by rw [hresult₁, hresult₂, hash64_chunkMode_irrelevant h]⟩

end Sys2Proof.Machine
end
